-- ==== Sys2Proof/Word.lean ====
section
/-!
DEFINITION. The word of the machine.

Every value of the architecture is one byte: registers, PC, SP, FL, immediates, return addresses and memory cells
(`20_memory.md` R36). Byte values are unsigned, 0 to 255; nothing is signed (`00_scope.md` R6).
-/

namespace Sys2Proof

/-- One byte, bit 7 the most significant (`00_scope.md` R6). -/
abbrev Byte := BitVec 8

/-- An index of the register file: 0 to 7 (`10_state.md` R10). -/
abbrev RegIdx := Fin 8

end Sys2Proof
end

