-- ==== Sys2Proof/Syntax.lean ====
section
/-!
DEFINITION. The instructions: one constructor per row of the opcode table (`30_encoding.md` R57).

A register operand is kept as THE WHOLE OPERAND BYTE, 0 to 255: the byte is not masked, and a byte above 7 decodes and is
then turned away by the handler (`30_encoding.md` R54, `40_execution_engine.md` R76, test vector V19; log entry 18).
`WellFormed.lean` says which of these terms name registers that exist.
-/

namespace Sys2Proof

/-- The thirteen instructions of `00_scope.md` R1. `a` and `b` are the operand bytes used as register indices, `imm` the
operand byte used as an immediate (`00_scope.md` R8). -/
inductive Instr where
  | hlt
  | ldi  (a imm : Byte)
  | prn  (a : Byte)
  | add  (a b : Byte)
  | mul  (a b : Byte)
  | cmp  (a b : Byte)
  | push (a : Byte)
  | pop  (a : Byte)
  | call (a : Byte)
  | ret
  | jmp  (a : Byte)
  | jeq  (a : Byte)
  | jne  (a : Byte)
deriving DecidableEq, Repr

end Sys2Proof
end

