-- ==== Sys2Proof/WellFormed.lean ====
section
/-!
DEFINITION. Which instructions name registers that exist.

An ill-formed instruction is still an instruction of the machine: it decodes, and running it raises RegisterIndexFault
(`40_execution_engine.md` R76).
-/

namespace Sys2Proof

/-- The operand bytes an instruction uses as register indices, operand a before operand b (`30_encoding.md` R64,
`40_execution_engine.md` R76). LDI's operand b is an immediate and is not among them. -/
def Instr.regOperands : Instr → List Byte
  | .hlt     => []
  | .ldi a _ => [a]
  | .prn a   => [a]
  | .add a b => [a, b]
  | .mul a b => [a, b]
  | .cmp a b => [a, b]
  | .push a  => [a]
  | .pop a   => [a]
  | .call a  => [a]
  | .ret     => []
  | .jmp a   => [a]
  | .jeq a   => [a]
  | .jne a   => [a]

/-- Every register operand is 0 to 7 (`30_encoding.md` R54). -/
def Instr.wellFormed (i : Instr) : Bool :=
  i.regOperands.all fun r => decide (r.toNat < 8)

end Sys2Proof
end

