-- ==== Sys2Proof/Decode.lean ====
section
/-!
DEFINITION. Decoding, total on any bytes and rejecting by name, and the encoder (`30_encoding.md`).

`dispatchTable` is written from the binary column of the opcode map of R57, `Mnemonic.opcode` from its hexadecimal column.
The opcode values and the place of the sets-PC bit are the spec's decisions D4 and D5, from general knowledge (log entry 1).
-/

namespace Sys2Proof

/-- The closed set of table entries: "a closed opcode enum" (`40_execution_engine.md` R72). -/
inductive Mnemonic where
  | hlt | ldi | prn | add | mul | cmp | push | pop | call | ret | jmp | jeq | jne
deriving DecidableEq, Repr

/-! ## Fields of the opcode byte -/

/-- `N`, bits 7:6 of the opcode: the operand count (`30_encoding.md` R52; `90_conflicts.md` C1). -/
def operandCount (ir : Byte) : Nat := ir.toNat / 64

/-- `C`, bit 4 of the opcode: the handler itself sets PC (`30_encoding.md` R52, `40_execution_engine.md` R78). -/
def setsPc (ir : Byte) : Bool := ir.getLsbD 4

/-! ## The dispatch table -/

/-- `opcode_dispatch_mux`: the thirteen keys of `30_encoding.md` R57, keyed by the whole byte (R52). -/
def dispatchTable : List (Byte × Mnemonic) :=
  [ (0b00000001, .hlt),
    (0b10000010, .ldi),
    (0b01000111, .prn),
    (0b10100000, .add),
    (0b10100010, .mul),
    (0b10100111, .cmp),
    (0b01000101, .push),
    (0b01000110, .pop),
    (0b01010000, .call),
    (0b00010001, .ret),
    (0b01010100, .jmp),
    (0b01010101, .jeq),
    (0b01010110, .jne) ]

/-- The lookup of `40_execution_engine.md` R72: a mnemonic, or no match. -/
def dispatch (ir : Byte) : Option Mnemonic := dispatchTable.lookup ir

/-- The instruction of a mnemonic with the fetched operand values; `none` where an operand it uses is `NONE`. An operand it
does not use is not looked at (`40_execution_engine.md` R74, R75). -/
def Mnemonic.build (m : Mnemonic) (opa opb : Option Byte) : Option Instr :=
  match m with
  | .hlt  => some .hlt
  | .ldi  => opa.bind fun a => opb.map fun imm => .ldi a imm
  | .prn  => opa.map .prn
  | .add  => opa.bind fun a => opb.map fun b => .add a b
  | .mul  => opa.bind fun a => opb.map fun b => .mul a b
  | .cmp  => opa.bind fun a => opb.map fun b => .cmp a b
  | .push => opa.map .push
  | .pop  => opa.map .pop
  | .call => opa.map .call
  | .ret  => some .ret
  | .jmp  => opa.map .jmp
  | .jeq  => opa.map .jeq
  | .jne  => opa.map .jne

/-- The four answers of the total decoder of `30_encoding.md` R64. -/
inductive Decoded where
  /-- the opcode byte is not a key of the table -/
  | illegal (ir : Byte)
  /-- an operand the instruction uses was fetched from outside memory -/
  | operandMissing (m : Mnemonic)
  /-- an operand byte used as a register index is above 7; answered by `decodeChecked` only -/
  | badRegister (m : Mnemonic) (index : Byte)
  /-- the instruction with its operands -/
  | instr (i : Instr)
deriving DecidableEq, Repr

/-- The engine's part of decoding, before a handler is invoked: lookup, then the operands the instruction uses
(`40_execution_engine.md` R70 step 3, R75). `none` stands for `NONE`. The register indices are the handler's to check. -/
def decode (ir : Byte) (opa opb : Option Byte) : Decoded :=
  match dispatch ir with
  | none   => .illegal ir
  | some m =>
    match m.build opa opb with
    | none   => .operandMissing m
    | some i => .instr i

/-! ## The encoder -/

/-- The mnemonic of an instruction. -/
def Instr.mnemonic : Instr → Mnemonic
  | .hlt     => .hlt
  | .ldi _ _ => .ldi
  | .prn _   => .prn
  | .add _ _ => .add
  | .mul _ _ => .mul
  | .cmp _ _ => .cmp
  | .push _  => .push
  | .pop _   => .pop
  | .call _  => .call
  | .ret     => .ret
  | .jmp _   => .jmp
  | .jeq _   => .jeq
  | .jne _   => .jne

/-- The opcode byte of a mnemonic: the hexadecimal column of `30_encoding.md` R57. -/
def Mnemonic.opcode : Mnemonic → Byte
  | .hlt  => 0x01
  | .ldi  => 0x82
  | .prn  => 0x47
  | .add  => 0xA0
  | .mul  => 0xA2
  | .cmp  => 0xA7
  | .push => 0x45
  | .pop  => 0x46
  | .call => 0x50
  | .ret  => 0x11
  | .jmp  => 0x54
  | .jeq  => 0x55
  | .jne  => 0x56

/-- The opcode byte of an instruction. -/
def Instr.opcode (i : Instr) : Byte := i.mnemonic.opcode

/-- The operand bytes in the order they lie in memory: the formats Z, R, RR, RI of `30_encoding.md` R51. -/
def Instr.operands : Instr → List Byte
  | .hlt       => []
  | .ldi a imm => [a, imm]
  | .prn a     => [a]
  | .add a b   => [a, b]
  | .mul a b   => [a, b]
  | .cmp a b   => [a, b]
  | .push a    => [a]
  | .pop a     => [a]
  | .call a    => [a]
  | .ret       => []
  | .jmp a     => [a]
  | .jeq a     => [a]
  | .jne a     => [a]

/-- The bytes of an instruction, the opcode byte first (`30_encoding.md` R50). -/
def encode (i : Instr) : List Byte := i.opcode :: i.operands

/-! ## The decoder with the register check, and decoding a list of bytes -/

/-- `30_encoding.md` R64, whole: illegal opcode, missing operand, bad register (operand a before operand b), instruction. -/
def decodeChecked (ir : Byte) (opa opb : Option Byte) : Decoded :=
  match decode ir opa opb with
  | .instr i =>
    match i.regOperands.find? fun r => decide (7 < r.toNat) with
    | some r => .badRegister i.mnemonic r
    | none   => .instr i
  | d => d

/-- The first instruction of a list of bytes and the bytes after it: an instruction occupies `1 + N` bytes
(`30_encoding.md` R53). A byte past the end of the list is `NONE`. -/
def decodeBytes (bytes : List Byte) : Option (Instr × List Byte) :=
  match bytes with
  | [] => none
  | ir :: rest =>
    match decode ir rest[0]? rest[1]? with
    | .instr i => some (i, rest.drop (operandCount ir))
    | _        => none

/-- Byte `k` of the table's numbering of an instruction's bits: byte 0 is bits 7:0, byte 1 bits 15:8, byte 2 bits 23:16; bits
at `nbits` and above are 0. -/
def tableByte (nbits w k : Nat) : Byte :=
  BitVec.ofNat 8 ((w % 2 ^ nbits) >>> (8 * k))

/-- The instruction `decode` reads from the table's word of `nbits` bits, laid out with its first byte lowest. -/
def decodeTableWord (nbits w : Nat) : Option Instr :=
  match decode (tableByte nbits w 0) (some (tableByte nbits w 1)) (some (tableByte nbits w 2)) with
  | .instr i => some i
  | _        => none

end Sys2Proof
end

