-- ==== Sys2Proof/Config.lean ====
section
/-!
DEFINITION. The parameters of the hardware (`00_scope.md` R5).

There is no free value: the spec fixes every value (`93_implementation_defined.md`, part 1), so nothing here is opaque.
-/

namespace Sys2Proof.Config

/-- `MEM_SIZE`: addresses 0 to 255 exist (`00_scope.md` R5, `20_memory.md` R30). -/
abbrev memSize : Nat := 256

/-- `SP_INDEX`: the register that is the stack pointer (`00_scope.md` R5, `10_state.md` R11). -/
abbrev spIndex : RegIdx := 7

/-- `SP_RESET`: the reset value of register 7 (`00_scope.md` R5, `10_state.md` R24). -/
abbrev spReset : Byte := 0xF4

/-- What every memory cell holds at reset (`10_state.md` R27), hence what a cell that nothing has written reads as. -/
abbrev resetCell : Byte := 0x00

end Sys2Proof.Config
end

