-- ==== Sys2Proof/Machine/State.lean ====
section
/-!
DEFINITION. The state of the machine, all of it (`10_state.md`), the reasons a step can stop, and reset.
-/

namespace Sys2Proof.Machine

/-- The run state of the engine (`10_state.md` R19). HALTED and FAULTED are terminal. -/
inductive RunState where
  | running | halted | faulted
deriving DecidableEq, Repr

/-- The fault causes of the hardware (`60_exceptions.md` R140). -/
inductive Cause where
  /-- code 1: the opcode byte has no dispatch-table entry -/
  | illegalInstruction
  /-- code 2: unreachable, kept for completeness (`42_alu.md` R105; log entry 14) -/
  | unsupportedOperation
  /-- code 3: an operand the instruction uses is `NONE` -/
  | operandFetch
  /-- code 4: an operand byte used as a register index is above 7 -/
  | registerIndex
  /-- code 5: the next sequential address, or CALL's return address, is above 255 -/
  | pcOverflow
deriving DecidableEq, Repr

/-- The fault record `flt` (`10_state.md` R19, `60_exceptions.md` R141). -/
structure FaultRecord where
  /-- the fault's cause -/
  cause : Cause
  /-- the address of the opcode byte of the faulting instruction -/
  fpc   : Byte
  /-- that opcode byte, as fetched -/
  fir   : Byte
deriving DecidableEq, Repr

/-- Memory: the cells whose value differs from the reset value, by rising address (`20_memory.md` R30). A cell that is not
listed holds `Config.resetCell` (log entry 9). -/
abbrev Memory := List Host.Cell

/-- The canonical form: addresses strictly rising, each inside memory, no cell listed with the value an unlisted one has. -/
abbrev Memory.wf (m : Memory) : Prop :=
  m.Pairwise (fun c d => c.1 < d.1) ∧ ∀ c ∈ m, c.1 < Config.memSize ∧ c.2 ≠ Config.resetCell

/-- The whole architectural state: the tuple at the head of `10_state.md`. -/
structure State where
  /-- the register file `x[0]` to `x[7]`; `x[7]` is SP (R10, R11) -/
  x   : Vector Byte 8
  /-- the program counter (R14) -/
  pc  : Byte
  /-- the flags register: bit 0 E, bit 1 G, bit 2 L (R16) -/
  fl  : Byte
  /-- the memory array `M` (R20) -/
  mem : Memory
  /-- the run state (R19) -/
  run : RunState
  /-- the fault record; `none` until a fault writes it (R19, R28; log entry 8) -/
  flt : Option FaultRecord
  /-- the output sequence, oldest value first (R21) -/
  out : List Byte
deriving DecidableEq, Repr

/-- Why the model's step gives no next state. A fault of the HARDWARE is not one of these: it is a next state with
`run = .faulted` and the fault record written (`60_exceptions.md` R149). -/
inductive Fault where
  /-- Raised by `step` alone, when `run = .halted`: no step is taken in HALTED (`10_state.md` R19). Safe: the machine is at
  its end, and the model claims nothing after it. -/
  | halted
  /-- Raised by `step` alone, when `run = .faulted`: no step is taken in FAULTED (`10_state.md` R19). Safe, as above. -/
  | faulted
deriving DecidableEq, Repr

/-- What the model gives no meaning to. -/
inductive Refusal where
  /-- Raised by an arm of `exec` whose instruction has no meaning in the model yet; no arm does. Safe. -/
  | notModelled (mnemonic : String)
  /-- Raised by `State.launch` alone, for a program image of more than 256 bytes (`70_reset_and_hazards.md` R165). Safe. -/
  | imageTooLong (length : Nat)
deriving DecidableEq, Repr

/-- The machine right after reset (`10_state.md` R24 to R29, `70_reset_and_hazards.md` R160). -/
def State.reset : State where
  x   := #v[0, 0, 0, 0, 0, 0, 0, Config.spReset]
  pc  := 0
  fl  := 0
  mem := []
  run := .running
  flt := none
  out := []

end Sys2Proof.Machine
end

