-- ==== Sys2Proof/Machine/Ops.lean ====
section
/-!
DEFINITION. The named operations over registers, PC, memory, the stack, the output and the run state; taking a fault; the
PC update that ends a step.
-/

namespace Sys2Proof.Machine

/-- `code` of a cause (`60_exceptions.md` R140). -/
def Cause.code : Cause → Nat
  | .illegalInstruction   => 1
  | .unsupportedOperation => 2
  | .operandFetch         => 3
  | .registerIndex        => 4
  | .pcOverflow           => 5

/-! ## Memory (`20_memory.md` R30 to R32) -/

/-- The value of the cell at address `a`: the listed one, else the reset value. -/
def Memory.cell : Memory → Nat → Byte
  | [], _ => Config.resetCell
  | (k, v) :: rest, a => if k = a then v else Memory.cell rest a

/-- `MemRead(addr, 1)`: the byte for an address of memory, `NONE` from 256 on (`20_memory.md` R31). -/
def Memory.read (m : Memory) (a : Nat) : Option Byte :=
  if a < Config.memSize then some (m.cell a) else none

/-- Puts a value in one cell and keeps the canonical form: the reset value is stored by not listing the cell. -/
def Memory.insert : Memory → Nat → Byte → Memory
  | [], a, v => if v = Config.resetCell then [] else [(a, v)]
  | (k, w) :: rest, a, v =>
    if a < k then
      if v = Config.resetCell then (k, w) :: rest else (a, v) :: (k, w) :: rest
    else if a = k then
      if v = Config.resetCell then rest else (a, v) :: rest
    else
      (k, w) :: Memory.insert rest a v

/-- `MemWrite(addr, 1, v)`. The write port takes an 8-bit address, so no write is out of range (`20_memory.md` R32). -/
def Memory.write (m : Memory) (a v : Byte) : Memory := m.insert a.toNat v

/-- Bytes laid into consecutive cells from address `a` up: the writes of the loader (`70_reset_and_hazards.md` R164). There is
no cell at 256 or above, and a byte that would fall there is laid nowhere; `State.launch` refuses such an image. -/
def Memory.place (m : Memory) (a : Nat) : List Byte → Memory
  | [] => m
  | v :: rest =>
    Memory.place (if a < Config.memSize then m.write (BitVec.ofNat 8 a) v else m) (a + 1) rest

/-! ## State accessors and updates -/

/-- `x[i]`. -/
def State.readReg (s : State) (i : RegIdx) : Byte := s.x[i]

/-- `x[i] <- v`. No register is hardwired (`10_state.md` R11). -/
def State.writeReg (s : State) (i : RegIdx) (v : Byte) : State := { s with x := s.x.set i v }

/-- SP, the same 8 bits as `x[7]` (`10_state.md` R11). -/
def State.sp (s : State) : Byte := s.readReg Config.spIndex

/-- `pc <- target`. -/
def State.writePc (s : State) (target : Byte) : State := { s with pc := target }

/-- `fl <- v`: all eight bits are overwritten (`10_state.md` R17). -/
def State.writeFl (s : State) (v : Byte) : State := { s with fl := v }

/-- `MemRead(addr, 1)` of the machine. -/
def State.memRead (s : State) (a : Nat) : Option Byte := s.mem.read a

/-- A read at an 8-bit address, which is never `NONE` (`20_memory.md` R33). -/
def State.load (s : State) (a : Byte) : Byte := s.mem.cell a.toNat

/-- `MemWrite(addr, 1, v)` of the machine. -/
def State.memWrite (s : State) (a v : Byte) : State := { s with mem := s.mem.write a v }

/-- `emit(v)`: appends a value to the output (`10_state.md` R21). -/
def State.emit (s : State) (v : Byte) : State := { s with out := s.out ++ [v] }

/-- `run <- HALTED` (`41_hlt_ldi_prn.md` R91). -/
def State.halt (s : State) : State := { s with run := .halted }

/-- TAKING A FAULT, `raise F(p, ir)`: the run state becomes FAULTED and the record is written; PC keeps the address of the
faulting instruction, and control goes nowhere (`60_exceptions.md` R149, R141). There is no return from a fault (R151). -/
def State.raise (s : State) (c : Cause) (ir : Byte) : State :=
  { s with run := .faulted, flt := some ⟨c, s.pc, ir⟩ }

/-! ## The stack (`43_stack.md` R110) -/

/-- `x[7] <- (x[7] - 1) mod 256`. -/
def State.decSp (s : State) : State :=
  s.writeReg Config.spIndex (BitVec.ofNat 8 ((s.sp.toNat + 255) % 256))

/-- `x[7] <- (x[7] + 1) mod 256`. -/
def State.incSp (s : State) : State :=
  s.writeReg Config.spIndex (BitVec.ofNat 8 ((s.sp.toNat + 1) % 256))

/-- The write that follows the decrement in a push: `MemWrite(x[7], 1, v)`. -/
def State.storeTop (s : State) (v : Byte) : State := s.memWrite s.sp v

/-- The read that comes first in a pop: `MemRead(x[7], 1)`. -/
def State.loadTop (s : State) : Byte := s.load s.sp

/-- `push(v)` for a value that does not depend on SP. -/
def State.pushByte (s : State) (v : Byte) : State := s.decSp.storeTop v

/-! ## The PC update and the engine around a handler (`40_execution_engine.md` R70, R78 to R80) -/

/-- The address of a sequential successor, an exact integer that must fit in PC (R79, `44_control_transfer.md` R121). -/
def nextAddress (n : Nat) : Except Cause Byte :=
  if n ≤ 255 then .ok (BitVec.ofNat 8 n) else .error .pcOverflow

/-- The lines of R70 after the handler, computed from the opcode's bits for every opcode alike: nothing when `C = 1`; else
`pc <- p + 1 + N` if that fits, its low 8 bits if the machine has just halted, and PcOverflow otherwise, the handler's effects
staying. `s.pc` is still `p` here, since a handler with `C = 0` does not write PC. -/
def State.autoAdvance (s : State) (ir : Byte) : State :=
  if setsPc ir then s
  else
    let next := s.pc.toNat + 1 + operandCount ir
    if next ≤ 255 then s.writePc (BitVec.ofNat 8 next)
    else if s.run = .halted then s.writePc (BitVec.ofNat 8 (next % 256))
    else s.raise .pcOverflow ir

/-- The engine around a handler: a fault the handler raises comes before any effect of its own and ends the step; else the
PC update follows (R70, R77). A handler answers its fault's cause or the state with its effects. -/
def engine (m : Mnemonic) (handler : State → Except Cause State) (s : State) : Host.Outcome State Fault Refusal :=
  match handler s with
  | .error c => .next (s.raise c m.opcode)
  | .ok t    => .next (t.autoAdvance m.opcode)

end Sys2Proof.Machine
end

