-- ==== Sys2Proof/Machine/Flags.lean ====
section
/-!
DEFINITION. The flags register and its one computation (`10_state.md` R16, R17; `42_alu.md` R104).
-/

namespace Sys2Proof.Machine

/-- FL with only E set: bit 0, Equal. -/
def flagE : Byte := 0b00000001

/-- FL with only G set: bit 1, Greater-Than. -/
def flagG : Byte := 0b00000010

/-- FL with only L set: bit 2, Less-Than. -/
def flagL : Byte := 0b00000100

/-- The whole of FL after CMP: exactly one bit, by the unsigned order of the two values (`42_alu.md` R104). -/
def compareFlags (u v : Byte) : Byte :=
  if u.toNat = v.toNat then flagE
  else if v.toNat < u.toNat then flagG
  else flagL

/-- The E bit, the only one an instruction reads (`10_state.md` R17). -/
def State.equalBit (s : State) : Bool := s.fl.getLsbD 0

end Sys2Proof.Machine
end

