-- ==== Sys2Proof/Machine/Operands.lean ====
section
/-!
DEFINITION. The operand forms (`30_encoding.md` R54 to R56): a register index, which is a whole byte that must be 0 to 7, and
LDI's immediate, which is used as it stands and needs no operation. There is no other form.
-/

namespace Sys2Proof.Machine

/-- A register operand: the register the byte names, or RegisterIndexFault; the byte is not masked
(`30_encoding.md` R54, `40_execution_engine.md` R76). -/
def regIndex (a : Byte) : Except Cause RegIdx :=
  if h : a.toNat < 8 then .ok ⟨a.toNat, h⟩ else .error .registerIndex

end Sys2Proof.Machine
end

