-- ==== Sys2Proof/Machine/Alu.lean ====
section
/-!
DEFINITION. `alu_unit` and the instructions that drive it: ADD, MUL, CMP (`42_alu.md`).
-/

namespace Sys2Proof.Machine

/-- The operations of the ALU. The type is closed, so UnsupportedOperation cannot be expressed (`42_alu.md` R105). -/
inductive AluOp where
  | add | mul | cmp
deriving DecidableEq, Repr

/-- The exact sum, narrowed to its low 8 bits (`42_alu.md` R101, R102). -/
def aluAdd (u v : Byte) : Byte := BitVec.ofNat 8 ((u.toNat + v.toNat) % 256)

/-- The exact product, narrowed to its low 8 bits (`42_alu.md` R101, R103). -/
def aluMul (u v : Byte) : Byte := BitVec.ofNat 8 ((u.toNat * v.toNat) % 256)

/-- `execute(op, reg_a, reg_b)`: reads both registers, writes `x[reg_a]` or FL, and nothing else (`42_alu.md` R100). -/
def aluExecute (op : AluOp) (a b : RegIdx) (s : State) : State :=
  match op with
  | .add => s.writeReg a (aluAdd (s.readReg a) (s.readReg b))
  | .mul => s.writeReg a (aluMul (s.readReg a) (s.readReg b))
  | .cmp => s.writeFl (compareFlags (s.readReg a) (s.readReg b))

/-- The handler of an ALU instruction: both indices are checked, `a` first, before anything is read or written
(`40_execution_engine.md` R76). -/
def aluHandler (op : AluOp) (a b : Byte) (s : State) : Except Cause State := do
  let i ← regIndex a
  let j ← regIndex b
  return aluExecute op i j s

/-- The meaning of ADD (R102). -/
def execAdd (a b : Byte) (s : State) : Host.Outcome State Fault Refusal := engine .add (aluHandler .add a b) s

/-- The meaning of MUL (R103). -/
def execMul (a b : Byte) (s : State) : Host.Outcome State Fault Refusal := engine .mul (aluHandler .mul a b) s

/-- The meaning of CMP (R104). -/
def execCmp (a b : Byte) (s : State) : Host.Outcome State Fault Refusal := engine .cmp (aluHandler .cmp a b) s

end Sys2Proof.Machine
end

