-- ==== Sys2Proof/Machine/Control.lean ====
section
/-!
DEFINITION. CALL, RET, JMP, JEQ, JNE (`44_control_transfer.md`). Their opcodes have `C = 1`: the handler writes PC on every
path, and the engine does not advance it (`40_execution_engine.md` R80).
-/

namespace Sys2Proof.Machine

/-- CALL a: the return address `p + 2` must fit, and is checked before anything changes; it is pushed; then
`pc <- x[a]`, read after the push (R121). -/
def callHandler (a : Byte) (s : State) : Except Cause State := do
  let i ← regIndex a
  let ra ← nextAddress (s.pc.toNat + 2)
  let s := s.pushByte ra
  return s.writePc (s.readReg i)

/-- RET: `pc <- M[SP]`, then SP is incremented (R122). -/
def retHandler (s : State) : Except Cause State :=
  let s := s.writePc s.loadTop
  .ok s.incSp

/-- JMP a: `pc <- x[a]` (R124). -/
def jmpHandler (a : Byte) (s : State) : Except Cause State := do
  let i ← regIndex a
  return s.writePc (s.readReg i)

/-- A conditional jump: the index is checked on both paths; when the jump is not taken the handler itself writes `p + 2`,
which must fit (R126, R128). -/
def condJump (taken : Bool) (a : Byte) (s : State) : Except Cause State := do
  let i ← regIndex a
  if taken then
    return s.writePc (s.readReg i)
  else
    let next ← nextAddress (s.pc.toNat + 2)
    return s.writePc next

/-- The meaning of CALL (R121). -/
def execCall (a : Byte) (s : State) : Host.Outcome State Fault Refusal := engine .call (callHandler a) s

/-- The meaning of RET (R122). -/
def execRet (s : State) : Host.Outcome State Fault Refusal := engine .ret retHandler s

/-- The meaning of JMP (R124). -/
def execJmp (a : Byte) (s : State) : Host.Outcome State Fault Refusal := engine .jmp (jmpHandler a) s

/-- The meaning of JEQ: the jump is taken when the E bit is set (R126). -/
def execJeq (a : Byte) (s : State) : Host.Outcome State Fault Refusal := engine .jeq (condJump s.equalBit a) s

/-- The meaning of JNE: the jump is taken when the E bit is clear (R128). -/
def execJne (a : Byte) (s : State) : Host.Outcome State Fault Refusal := engine .jne (condJump (!s.equalBit) a) s

end Sys2Proof.Machine
end

