-- ==== Sys2Proof/Machine/HaltLoadPrint.lean ====
section
/-!
DEFINITION. HLT, LDI and PRN (`41_hlt_ldi_prn.md`).

A handler is the pseudocode of its rule; `engine` adds the PC update and turns the handler's cause into the fault.
-/

namespace Sys2Proof.Machine

/-- HLT: stop the execution loop (R91). -/
def haltHandler (s : State) : Except Cause State := .ok s.halt

/-- LDI a, imm: `x[a] <- imm` (R92). -/
def ldiHandler (a imm : Byte) (s : State) : Except Cause State := do
  let i ← regIndex a
  return s.writeReg i imm

/-- PRN a: `emit(x[a])` (R93). -/
def prnHandler (a : Byte) (s : State) : Except Cause State := do
  let i ← regIndex a
  return s.emit (s.readReg i)

/-- The meaning of HLT (R91). -/
def execHlt (s : State) : Host.Outcome State Fault Refusal := engine .hlt haltHandler s

/-- The meaning of LDI (R92). -/
def execLdi (a imm : Byte) (s : State) : Host.Outcome State Fault Refusal := engine .ldi (ldiHandler a imm) s

/-- The meaning of PRN (R93). -/
def execPrn (a : Byte) (s : State) : Host.Outcome State Fault Refusal := engine .prn (prnHandler a) s

end Sys2Proof.Machine
end

