-- ==== Sys2Proof/Machine/Stack.lean ====
section
/-!
DEFINITION. PUSH and POP (`43_stack.md`). Effects happen in the order the rules write them, which decides what an explicit
operand 7 does (log entry 6).
-/

namespace Sys2Proof.Machine

/-- PUSH a: decrement SP, then write `x[a]`, read after the decrement, to `M[SP]` (R111). -/
def pushHandler (a : Byte) (s : State) : Except Cause State := do
  let i ← regIndex a
  let s := s.decSp
  return s.storeTop (s.readReg i)

/-- POP a: read `M[SP]` into `x[a]`, then increment SP (R112). -/
def popHandler (a : Byte) (s : State) : Except Cause State := do
  let i ← regIndex a
  let s := s.writeReg i s.loadTop
  return s.incSp

/-- The meaning of PUSH (R111). -/
def execPush (a : Byte) (s : State) : Host.Outcome State Fault Refusal := engine .push (pushHandler a) s

/-- The meaning of POP (R112). -/
def execPop (a : Byte) (s : State) : Host.Outcome State Fault Refusal := engine .pop (popHandler a) s

end Sys2Proof.Machine
end

