-- ==== Sys2Proof/Machine/Fetch.lean ====
section
/-!
DEFINITION. Fetching an instruction (`40_execution_engine.md` R71) and what becomes of a fetch that decodes to none.
-/

namespace Sys2Proof.Machine

/-- `ir <- MemRead(p, 1)`: never `NONE`, since PC is 8 bits (`20_memory.md` R33). -/
def State.fetchOpcode (s : State) : Byte := s.load s.pc

/-- `opa <- MemRead(p + 1, 1)`, the sum not reduced (`20_memory.md` R33). -/
def State.fetchOpA (s : State) : Option Byte := s.memRead (s.pc.toNat + 1)

/-- `opb <- MemRead(p + 2, 1)`, the sum not reduced (`20_memory.md` R33). -/
def State.fetchOpB (s : State) : Option Byte := s.memRead (s.pc.toNat + 2)

/-- The three fetches of a step, always all three, and the lookup (R70, R71; `90_conflicts.md` C5). -/
def State.fetchDecode (s : State) : Decoded := decode s.fetchOpcode s.fetchOpA s.fetchOpB

/-- The state of a step that ends before a handler is invoked: nothing changes but `run` and `flt` (R73, R75). -/
def State.rejectFetch (s : State) (c : Cause) : State := s.raise c s.fetchOpcode

/-- The bytes of the table's word laid out at PC, and the engine running: all that the next step needs to run that
instruction. Where PC is 254 or 255 the bytes that would lie past address 255 have no cell, and the fetch gives `NONE` for
them (log entry 10). -/
def State.placeWord (s : State) (nbits w : Nat) : State :=
  { s with
    mem := s.mem.place s.pc.toNat [tableByte nbits w 0, tableByte nbits w 1, tableByte nbits w 2]
    run := .running }

end Sys2Proof.Machine
end

