-- ==== Sys2Proof/Machine/Step.lean ====
section
/-! DEFINITION. One step of the machine (`40_execution_engine.md` R70, R81). -/

namespace Sys2Proof.Machine

/-- While RUNNING: fetch, look up, check the operands the instruction uses, run the instruction. An illegal opcode and a
missing operand raise their faults before any effect; a bad register index is raised by the handler, in `exec` (the
`badRegister` answer is the checked decoder's alone and is listed here with the cause it stands for, `30_encoding.md` R64). In
HALTED and in FAULTED no step is taken (`10_state.md` R19). -/
def step (s : State) : Host.Outcome State Fault Refusal :=
  match s.run with
  | .halted  => .fault .halted
  | .faulted => .fault .faulted
  | .running =>
    match s.fetchDecode with
    | .illegal _        => .next (s.rejectFetch .illegalInstruction)
    | .operandMissing _ => .next (s.rejectFetch .operandFetch)
    | .badRegister _ _  => .next (s.rejectFetch .registerIndex)
    | .instr i          => exec i s

/-- The state whose next step runs the instruction of the opcode table's word. -/
def State.withFetchWord (s : State) (nbits w : Nat) : State := s.placeWord nbits w

end Sys2Proof.Machine
end

