-- ==== Sys2Proof/Machine/HostView.lean ====
section
/-!
DEFINITION. What passes between the block and its host besides steps: the launch and the trace view
(`70_reset_and_hazards.md` R164 to R167, `60_exceptions.md` R154). Reset is `State.reset`; the output, the run state and the
fault record are fields of `State`.
-/

namespace Sys2Proof.Machine

/-- `init(image)`: a fresh instance with the image loaded from address 0, the state at the first step
(`70_reset_and_hazards.md` R164). An image of more than 256 bytes is refused (R165). -/
def State.launch (image : List Byte) : Host.Outcome State Fault Refusal :=
  if image.length ≤ Config.memSize then
    .next { State.reset with mem := State.reset.mem.place 0 image }
  else .refused (.imageTooLong image.length)

/-- What the trace line shows (`60_exceptions.md` R154). A byte position past address 255 is `NONE`. -/
structure TraceLine where
  pc    : Byte
  bytes : List (Option Byte)
  regs  : List Byte
deriving DecidableEq, Repr

/-- The read-only view of a state the host may take between steps (`60_exceptions.md` R154). -/
def State.trace (s : State) : TraceLine where
  pc    := s.pc
  bytes := [some s.fetchOpcode, s.fetchOpA, s.fetchOpB]
  regs  := s.x.toList

end Sys2Proof.Machine
end

