-- ==== Sys2Proof/Safety.lean ====
section
/-!
DEFINITION. What counts as a safe state and a completed run, in the terms the statements use.
-/

namespace Sys2Proof.Machine

/-- The values FL can hold (`10_state.md` R18). -/
def legalFlags : List Byte := [0x00, 0x01, 0x02, 0x04]

/-- The invariant of the machine: memory is in canonical form, FL is one of its four values (`10_state.md` R18), and the fault
record is there exactly in FAULTED, names the instruction PC still points at (`60_exceptions.md` R150), and never has the
unreachable cause (`42_alu.md` R105). -/
abbrev State.Inv (s : State) : Prop :=
  s.mem.wf ∧ s.fl ∈ legalFlags ∧
  (s.run = .faulted ↔ s.flt.isSome = true) ∧
  ∀ f ∈ s.flt, f.fpc = s.pc ∧ f.cause ≠ .unsupportedOperation

/-- Some operand byte that the opcode's instruction uses as a register index is above 7: operand a for every instruction that
has one, operand b for ADD, MUL and CMP (`40_execution_engine.md` R76). -/
def State.badRegister (s : State) : Bool :=
  (decide (1 ≤ operandCount s.fetchOpcode) && s.fetchOpA.any fun a => decide (7 < a.toNat)) ||
  ([0xA0, 0xA2, 0xA7].contains s.fetchOpcode && s.fetchOpB.any fun b => decide (7 < b.toNat))

/-- The address of the next sequential instruction is above 255 where the step needs it: at the auto-advance of every
instruction but HLT, for CALL's return address, and for JEQ and JNE when they do not jump (`60_exceptions.md` R140, code 5). -/
def State.overflowsPc (s : State) : Bool :=
  let ir := s.fetchOpcode
  decide (255 < s.pc.toNat + 1 + operandCount ir) &&
  ((!setsPc ir && ir != 0x01) || ir == 0x50 || (ir == 0x55 && !s.equalBit) || (ir == 0x56 && s.equalBit))

/-- The fault a step raises, if any: the first, in the order of priority, whose condition holds, read off the fetched bytes,
PC and the E bit alone (`60_exceptions.md` R148). -/
def State.firstFault (s : State) : Option Cause :=
  if dispatch s.fetchOpcode = none then some .illegalInstruction
  else if (1 ≤ operandCount s.fetchOpcode ∧ s.fetchOpA = none) ∨ (2 = operandCount s.fetchOpcode ∧ s.fetchOpB = none) then
    some .operandFetch
  else if s.badRegister then some .registerIndex
  else if s.overflowsPc then some .pcOverflow
  else none

/-- A run from `s` reaches `t` in `k` steps. -/
def Reaches (k : Nat) (s t : State) : Prop := Sys2Proof.core.run k s = .next t

/-- The run from `s` has ended successfully in `t` (`70_reset_and_hazards.md` R168). -/
def CompletesIn (s t : State) : Prop := t.run = .halted ∧ ∃ k, Reaches k s t

/-- The run from `s` has ended in FAULTED, in `t`. -/
def FaultsIn (s t : State) : Prop := t.run = .faulted ∧ ∃ k, Reaches k s t

/-- The run from `s` never ends (`40_execution_engine.md` R82). -/
def RunsForEver (s : State) : Prop := ∀ k, ∃ t, Reaches k s t ∧ t.run = .running

end Sys2Proof.Machine
end

