-- ==== Sys2Proof/Certificates/Slice0/Obligations.lean ====
section
/-!
DEFINITION. The statements for the provers. Each docstring names the rule of spec/ it formalises; where a clause rests on a
point the spec marks as its own decision (`92_eei_decisions.md` D<n>) or on a choice of the model, it says so.

`p` is `s.pc`. Memory is read through `memRead`, the spec's `MemRead`, at mathematical addresses; bytes are added and
subtracted modulo 256, and registers are written with `Vector.set`, so an equation `… = .next { s with … }` says the result
and the whole frame at once: every field not named is unchanged.
-/

open Sys2Proof Sys2Proof.Machine

/-! ## Reset and launch -/

/-- `10_state.md` R24, R25, R26: the registers, PC and FL at reset. -/
def Obligations.ResetSetsRegistersPcFlags : Prop :=
  (∀ i : RegIdx, State.reset.x[i] = if i = 7 then 0xF4 else 0x00) ∧ State.reset.pc = 0 ∧ State.reset.fl = 0x00

/-- `10_state.md` R28: the run state at reset is RUNNING, and while a machine runs nothing reads the fault record: with any other
record in its place, a step differs in the record alone, and not even there once it has faulted. -/
def Obligations.ResetIsRunningAndFaultRecordIsNeverRead : Prop :=
  State.reset.run = .running ∧
  ∀ s t : State, s.run = .running → step s = .next t →
    ∀ f : Option FaultRecord, step { s with flt := f } = .next { t with flt := if t.run = .faulted then t.flt else f }

/-- `70_reset_and_hazards.md` R164, `10_state.md` R27: an image of at most 256 bytes lies in memory from address 0, the other
cells hold 0, and nothing else differs from reset. -/
def Obligations.LaunchLoadsImageFromAddressZero : Prop :=
  ∀ image : List Byte, image.length ≤ 256 →
    ∃ s, State.launch image = .next s ∧ s = { State.reset with mem := s.mem } ∧
      ∀ a < 256, s.memRead a = some (image[a]?.getD 0)

/-- `70_reset_and_hazards.md` section 2 with the spec's decision D13 (a longer image has no launch state; log entry 11), and
`10_state.md` section 8 with D14 (the output is empty at reset). -/
def Obligations.LaunchRefusesLongImageAndStartsSilent : Prop :=
  (∀ image : List Byte, 256 < image.length → State.launch image = .refused (.imageTooLong image.length)) ∧
  ∀ (image : List Byte) (s : State), State.launch image = .next s → s.out = []

/-! ## Encoding -/

/-- `30_encoding.md` section 3 (the conditions of R58 on an opcode assignment, which the spec derives for R57; the values are
its decisions D4 and D5): injective, bits 7:6 the operand count, bit 4 set exactly for CALL, RET, JMP, JEQ, JNE. -/
def Obligations.OpcodeAssignmentIsAcceptable : Prop :=
  (∀ m n : Mnemonic, m.opcode = n.opcode → m = n) ∧
  (∀ i : Instr, operandCount i.opcode = (encode i).length - 1) ∧
  (∀ m : Mnemonic, setsPc m.opcode = true ↔ m ∈ [Mnemonic.call, .ret, .jmp, .jeq, .jne])

/-- `30_encoding.md` sections 3 and 4 (opcode values: the spec's decision D4): words of all thirteen instructions, written from
the test vectors V1 to V13 and V19, and the 243 illegal bytes, as the ranges of the table of R59. -/
def Obligations.OpcodeMapWordsAndIllegalBytes : Prop :=
  decode 0x01 none none = .instr .hlt ∧
  decode 0x82 (some 0x03) (some 0xFF) = .instr (.ldi 3 255) ∧
  decode 0x47 (some 0x00) none = .instr (.prn 0) ∧
  decode 0xA0 (some 0x00) (some 0x01) = .instr (.add 0 1) ∧
  decode 0xA2 (some 0x02) (some 0x02) = .instr (.mul 2 2) ∧
  decode 0xA7 (some 0x06) (some 0x07) = .instr (.cmp 6 7) ∧
  decode 0x45 (some 0x07) none = .instr (.push 7) ∧
  decode 0x46 (some 0x04) none = .instr (.pop 4) ∧
  decode 0x50 (some 0x01) none = .instr (.call 1) ∧
  decode 0x11 none none = .instr .ret ∧
  decode 0x54 (some 0x05) none = .instr (.jmp 5) ∧
  decode 0x55 (some 0x02) none = .instr (.jeq 2) ∧
  decode 0x56 (some 0x03) none = .instr (.jne 3) ∧
  decode 0x47 (some 0x08) none = .instr (.prn 8) ∧
  ∀ (ir : Byte) (opa opb : Option Byte),
    decode ir opa opb = .illegal ir ↔
      ir = 0x00 ∨ (0x02 ≤ ir ∧ ir ≤ 0x10) ∨ (0x12 ≤ ir ∧ ir ≤ 0x44) ∨ (0x48 ≤ ir ∧ ir ≤ 0x4F) ∨
      (0x51 ≤ ir ∧ ir ≤ 0x53) ∨ (0x57 ≤ ir ∧ ir ≤ 0x81) ∨ (0x83 ≤ ir ∧ ir ≤ 0x9F) ∨ ir = 0xA1 ∨
      (0xA3 ≤ ir ∧ ir ≤ 0xA6) ∨ (0xA8 ≤ ir ∧ ir ≤ 0xFF)

/-- `30_encoding.md` sections 1 to 3: the encoding is prefix-free and loses nothing. Decoding the bytes of ANY instruction,
with anything after them, gives it back with the rest; and bytes that decode to an instruction are its encoding. -/
def Obligations.DecodeAndEncodeAgree : Prop :=
  (∀ (i : Instr) (rest : List Byte), decodeBytes (encode i ++ rest) = some (i, rest)) ∧
  ∀ (bytes : List Byte) (i : Instr) (rest : List Byte),
    decodeBytes bytes = some (i, rest) → bytes = encode i ++ rest

/-- `30_encoding.md` section 6 (R64, which the spec marks as derived): the four answers of the total decoder and their
priority. `N` is read from the opcode's bits. -/
def Obligations.CheckedDecoderFollowsItsPriority : Prop :=
  ∀ (ir : Byte) (opa opb : Option Byte),
    ((∀ m : Mnemonic, m.opcode ≠ ir) → decodeChecked ir opa opb = .illegal ir) ∧
    ∀ m : Mnemonic, m.opcode = ir →
      (((1 ≤ operandCount ir ∧ opa = none) ∨ (operandCount ir = 2 ∧ opb = none)) →
        decodeChecked ir opa opb = .operandMissing m) ∧
      (∀ a, 1 ≤ operandCount ir → opa = some a → (operandCount ir = 2 → opb ≠ none) → 7 < a.toNat →
        decodeChecked ir opa opb = .badRegister m a) ∧
      (∀ a b, m ∈ [Mnemonic.add, .mul, .cmp] → opa = some a → opb = some b → a.toNat ≤ 7 → 7 < b.toNat →
        decodeChecked ir opa opb = .badRegister m b) ∧
      ((1 ≤ operandCount ir → ∃ a, opa = some a ∧ a.toNat ≤ 7) →
       (operandCount ir = 2 → ∃ b, opb = some b ∧ (m ∈ [Mnemonic.add, .mul, .cmp] → b.toNat ≤ 7)) →
        ∃ i : Instr, i.wellFormed = true ∧ i.mnemonic = m ∧ decodeChecked ir opa opb = .instr i)

/-! ## The step around an instruction -/

/-- `40_execution_engine.md` section 1: in RUNNING, where the bytes of an instruction lie at PC, a step is the execution of that
instruction, whatever the bytes after it and whether or not it is well formed. (In the model the PC update and the handler's
faults are part of `exec`; nothing is added around it.) -/
def Obligations.StepRunsTheDecodedInstruction : Prop :=
  (∀ (s : State) (i : Instr), s.run = .running → s.fetchDecode = .instr i → step s = exec i s) ∧
  ∀ (s : State) (i : Instr), s.run = .running →
    (∀ (k : Nat) (hk : k < (encode i).length), s.memRead (s.pc.toNat + k) = some (encode i)[k]) →
    step s = exec i s

/-- The model's `withFetchWord` (log entry 10): from any state with canonical memory whose PC leaves room for three bytes, the
next step runs the instruction the table's word decodes to. -/
def Obligations.StepRunsThePlacedWord : Prop :=
  ∀ (s : State) (nbits w : Nat) (i : Instr), s.mem.wf → s.pc.toNat ≤ 253 → decodeTableWord nbits w = some i →
    step (s.withFetchWord nbits w) = exec i (s.withFetchWord nbits w)

/-- `40_execution_engine.md` section 1 and `60_exceptions.md` section 1: a running machine always steps, and no instruction, in
any state and with any operands, is refused or stops the model; a fault of the hardware is a next state. -/
def Obligations.RunningMachineAlwaysSteps : Prop :=
  (∀ (i : Instr) (s : State), ∃ t, exec i s = .next t) ∧
  ∀ s : State, s.run = .running → ∃ t, step s = .next t

/-- `10_state.md` section 4 (R19; FAULTED is the spec's decision D11): HALTED and FAULTED are terminal; the model answers by name
(log entry 7), and no run goes on from them. -/
def Obligations.HaltedAndFaultedAreTerminal : Prop :=
  (∀ s : State, s.run = .halted → step s = .fault .halted) ∧
  (∀ s : State, s.run = .faulted → step s = .fault .faulted) ∧
  ∀ (s t : State) (k : Nat), s.run ≠ .running → Reaches k s t → k = 0 ∧ t = s

/-! ## Faults -/

/-- `60_exceptions.md` sections 1 and 4: `raise` makes the machine FAULTED, writes the record, changes nothing else, PC included,
and no further step is taken. That a step asked of it answers `fault .faulted` is the model's choice (log entry 7); the codes of
the causes are the spec's decision D11. -/
def Obligations.FaultEntryWritesRecordAndEndsTheRun : Prop :=
  ∀ (s : State) (c : Cause) (ir : Byte),
    s.raise c ir = { s with run := .faulted, flt := some ⟨c, s.pc, ir⟩ } ∧
    step (s.raise c ir) = .fault .faulted ∧
    [Cause.illegalInstruction, .unsupportedOperation, .operandFetch, .registerIndex, .pcOverflow].map Cause.code =
      [1, 2, 3, 4, 5]

/-- `40_execution_engine.md` R73: an opcode byte that is no key of the table. -/
def Obligations.UnknownOpcodeRaisesIllegalInstruction : Prop :=
  ∀ (s : State) (ir : Byte), s.run = .running → s.memRead s.pc.toNat = some ir → (∀ m : Mnemonic, m.opcode ≠ ir) →
    step s = .next { s with run := .faulted, flt := some ⟨.illegalInstruction, s.pc, ir⟩ }

/-- `40_execution_engine.md` section 3 with the spec's decision D6: an operand the instruction uses lies past address 255. -/
def Obligations.MissingOperandRaisesOperandFetchFault : Prop :=
  ∀ (s : State) (m : Mnemonic), s.run = .running → s.memRead s.pc.toNat = some m.opcode →
    255 < s.pc.toNat + operandCount m.opcode →
    step s = .next { s with run := .faulted, flt := some ⟨.operandFetch, s.pc, m.opcode⟩ }

/-- `40_execution_engine.md` section 3 with the spec's decision D7: a register operand above 7, whichever operand it is, taken
or not taken, at any PC; nothing but `run` and `flt` changes. The record's opcode byte is the instruction's own (log entry 13). -/
def Obligations.BadRegisterOperandRaisesRegisterIndexFault : Prop :=
  ∀ (s : State) (i : Instr), i.wellFormed = false →
    exec i s = .next { s with run := .faulted, flt := some ⟨.registerIndex, s.pc, i.opcode⟩ }

/-- `40_execution_engine.md` section 4 and `60_exceptions.md` section 4 with the spec's decision D8: where the next sequential
address is 256, the instruction's effects stay, PC keeps its value, and PcOverflow is raised: PRN, PUSH, POP at 254 and LDI, ADD,
MUL, CMP at 253. The effects are those of `41_hlt_ldi_prn.md`, `42_alu.md` section 2 and `43_stack.md` sections 1 and 2, on the
spec's decisions D1 (modulo 256), D2 (SP modulo 256), D3 (CMP unsigned) and D17 (PUSH R7, POP R7). The record's opcode byte, in a
statement about `exec`, is the instruction's own (log entry 13). -/
def Obligations.AutoAdvancePastTheTopKeepsEffectsAndFaults : Prop :=
  ∀ s : State, s.run = .running →
    (s.pc = 254 → ∀ (a : Byte) (ha : a.toNat < 8),
      exec (.prn a) s = .next ({ s with out := s.out ++ [s.x[a.toNat]] }.raise .pcOverflow 0x47) ∧
      exec (.push a) s = .next
        ({ s with x := s.x.set 7 (s.x[7] - 1)
                  mem := s.mem.write (s.x[7] - 1) ((s.x.set 7 (s.x[7] - 1))[a.toNat]) }.raise .pcOverflow 0x45) ∧
      ∀ v, s.memRead s.x[7].toNat = some v →
        exec (.pop a) s = .next
          ({ s with x := (s.x.set a.toNat v).set 7 ((s.x.set a.toNat v)[7] + 1) }.raise .pcOverflow 0x46)) ∧
    (s.pc = 253 → ∀ (a b : Byte) (ha : a.toNat < 8),
      exec (.ldi a b) s = .next ({ s with x := s.x.set a.toNat b }.raise .pcOverflow 0x82) ∧
      ∀ hb : b.toNat < 8,
        exec (.add a b) s = .next ({ s with x := s.x.set a.toNat (s.x[a.toNat] + s.x[b.toNat]) }.raise .pcOverflow 0xA0) ∧
        exec (.mul a b) s = .next ({ s with x := s.x.set a.toNat (s.x[a.toNat] * s.x[b.toNat]) }.raise .pcOverflow 0xA2) ∧
        exec (.cmp a b) s = .next
          ({ s with fl := if s.x[a.toNat] = s.x[b.toNat] then 0x01
                          else if s.x[b.toNat] < s.x[a.toNat] then 0x02 else 0x04 }.raise .pcOverflow 0xA7))

/-- `44_control_transfer.md` sections 2 and 3 with the spec's decisions D8 and D10: CALL at 254, and JEQ and JNE at 254 when
they do not jump, raise PcOverflow before any effect; a JEQ or JNE that jumps does not. The record's opcode byte is the
instruction's own (log entry 13). -/
def Obligations.CallAndFallThroughAtTheTopFaultBeforeAnyEffect : Prop :=
  ∀ (s : State) (a : Byte) (ha : a.toNat < 8), s.pc = 254 →
    exec (.call a) s = .next (s.raise .pcOverflow 0x50) ∧
    exec (.jeq a) s = .next (if s.fl.getLsbD 0 then { s with pc := s.x[a.toNat] } else s.raise .pcOverflow 0x55) ∧
    exec (.jne a) s = .next (if s.fl.getLsbD 0 then s.raise .pcOverflow 0x56 else { s with pc := s.x[a.toNat] })

/-- `60_exceptions.md` sections 1, 3 and 4 with the spec's decisions D6, D7, D8, D11: which fault a step raises is the first, in
the order IllegalInstruction, OperandFetchFault, RegisterIndexFault, PcOverflow, whose condition holds (`State.firstFault`, read
off the fetched bytes, PC and the E bit). When there is one, the record names the instruction and PC does not move, and for every
cause but the auto-advance's PcOverflow nothing but `run` and `flt` changes; when there is none, the step does not fault. -/
def Obligations.StepRaisesExactlyTheFirstFault : Prop :=
  ∀ s : State, s.run = .running →
    ∃ t, step s = .next t ∧
      match s.firstFault with
      | none   => t.run ≠ .faulted ∧ t.flt = s.flt
      | some c =>
        t.run = .faulted ∧ t.flt = some ⟨c, s.pc, s.fetchOpcode⟩ ∧ t.pc = s.pc ∧
        (c ≠ .pcOverflow ∨ setsPc s.fetchOpcode = true → t = s.raise c s.fetchOpcode)

/-! ## What each instruction does when it completes (`exec`) -/

/-- `41_hlt_ldi_prn.md` section on HLT; PC after HLT is the spec's decision D9 (a claim about a program should not rest on it):
HLT completes in every state and at every PC, 255 included. -/
def Obligations.ExecHltHalts : Prop :=
  ∀ s : State, exec .hlt s = .next { s with run := .halted, pc := s.pc + 1 }

/-- `41_hlt_ldi_prn.md`, `42_alu.md` section 2 (overflow: the spec's decision D1): LDI, ADD and MUL complete wherever their
registers exist and the next address fits, and write `x[a]`, SP included, and PC only. -/
def Obligations.ExecLdiAddMulWriteTheirRegister : Prop :=
  ∀ (s : State) (a b : Byte) (ha : a.toNat < 8), s.pc.toNat ≤ 252 →
    exec (.ldi a b) s = .next { s with x := s.x.set a.toNat b, pc := s.pc + 3 } ∧
    ∀ hb : b.toNat < 8,
      exec (.add a b) s = .next
        { s with x := s.x.set a.toNat (BitVec.ofNat 8 ((s.x[a.toNat].toNat + s.x[b.toNat].toNat) % 256)), pc := s.pc + 3 } ∧
      exec (.mul a b) s = .next
        { s with x := s.x.set a.toNat (BitVec.ofNat 8 ((s.x[a.toNat].toNat * s.x[b.toNat].toNat) % 256)), pc := s.pc + 3 }

/-- `42_alu.md` section 2 (unsigned order: the spec's decision D3): CMP overwrites FL and writes no register. -/
def Obligations.ExecCmpOverwritesFlags : Prop :=
  ∀ (s : State) (a b : Byte) (ha : a.toNat < 8) (hb : b.toNat < 8), s.pc.toNat ≤ 252 →
    exec (.cmp a b) s = .next
      { s with fl := if s.x[a.toNat].toNat = s.x[b.toNat].toNat then 0b00000001
                     else if s.x[a.toNat].toNat > s.x[b.toNat].toNat then 0b00000010
                     else 0b00000100
               pc := s.pc + 3 }

/-- `41_hlt_ldi_prn.md`: PRN appends `x[a]` to the output. -/
def Obligations.ExecPrnAppendsTheRegister : Prop :=
  ∀ (s : State) (a : Byte) (ha : a.toNat < 8), s.pc.toNat ≤ 253 →
    exec (.prn a) s = .next { s with out := s.out ++ [s.x[a.toNat]], pc := s.pc + 2 }

/-- `43_stack.md` section 2 (SP modulo 256: the spec's decision D2; PUSH R7: D17): PUSH completes; the value is read after the
decrement. -/
def Obligations.ExecPushStoresBelowTheStackPointer : Prop :=
  ∀ (s : State) (a : Byte) (ha : a.toNat < 8), s.pc.toNat ≤ 253 →
    exec (.push a) s = .next
      { s with x := s.x.set 7 (s.x[7] - 1)
               mem := s.mem.write (s.x[7] - 1) (if a.toNat = 7 then s.x[7] - 1 else s.x[a.toNat])
               pc := s.pc + 2 }

/-- `43_stack.md` section 2 (SP modulo 256: the spec's decision D2; POP R7: D17): POP completes; the increment is of the register
as the load left it. -/
def Obligations.ExecPopLoadsFromTheStackPointer : Prop :=
  ∀ (s : State) (a v : Byte) (ha : a.toNat < 8), s.pc.toNat ≤ 253 → s.memRead s.x[7].toNat = some v →
    exec (.pop a) s = .next
      { s with x := if a.toNat = 7 then s.x.set 7 (v + 1) else (s.x.set a.toNat v).set 7 (s.x[7] + 1)
               pc := s.pc + 2 }

/-- `44_control_transfer.md` section 2 (SP modulo 256: the spec's decision D2; CALL R7: D17): CALL completes wherever the return
address fits; RET completes in every state and at every PC. -/
def Obligations.ExecCallAndRetTransferThroughTheStack : Prop :=
  (∀ (s : State) (a : Byte) (ha : a.toNat < 8), s.pc.toNat ≤ 253 →
    exec (.call a) s = .next
      { s with x := s.x.set 7 (s.x[7] - 1)
               mem := s.mem.write (s.x[7] - 1) (s.pc + 2)
               pc := if a.toNat = 7 then s.x[7] - 1 else s.x[a.toNat] }) ∧
  ∀ (s : State) (v : Byte), s.memRead s.x[7].toNat = some v →
    exec .ret s = .next { s with pc := v, x := s.x.set 7 (s.x[7] + 1) }

/-- `44_control_transfer.md` section 3 (fall through: the spec's decision D10): JMP completes at every PC, JEQ and JNE wherever
`p + 2` fits; they write PC only and read bit 0 of FL only. -/
def Obligations.ExecJumpsWriteOnlyPc : Prop :=
  ∀ (s : State) (a : Byte) (ha : a.toNat < 8),
    exec (.jmp a) s = .next { s with pc := s.x[a.toNat] } ∧
    (s.pc.toNat ≤ 253 →
      exec (.jeq a) s = .next { s with pc := if s.fl.getLsbD 0 then s.x[a.toNat] else s.pc + 2 } ∧
      exec (.jne a) s = .next { s with pc := if s.fl.getLsbD 0 then s.pc + 2 else s.x[a.toNat] })

/-! ## The instruction rules whole, from the bytes in memory to the state after the step (`step`)

Opcode values are the spec's decision D4 throughout. -/

/-- `41_hlt_ldi_prn.md` section on HLT (the rule marks PC after HLT as the spec's decision D9): no fault at any address; what
lies after the opcode byte, or past address 255, does not matter. -/
def Obligations.StepHltRule : Prop :=
  ∀ s : State, s.run = .running → s.memRead s.pc.toNat = some 0x01 →
    step s = .next { s with run := .halted, pc := BitVec.ofNat 8 ((s.pc.toNat + 1) % 256) }

/-- `41_hlt_ldi_prn.md` R92, whole. -/
def Obligations.StepLdiRule : Prop :=
  ∀ s : State, s.run = .running → s.memRead s.pc.toNat = some 0x82 →
    (254 ≤ s.pc.toNat → step s = .next (s.raise .operandFetch 0x82)) ∧
    ∀ a imm, s.memRead (s.pc.toNat + 1) = some a → s.memRead (s.pc.toNat + 2) = some imm →
      (7 < a.toNat → step s = .next (s.raise .registerIndex 0x82)) ∧
      ∀ ha : a.toNat < 8,
        (s.pc.toNat = 253 → step s = .next ({ s with x := s.x.set a.toNat imm }.raise .pcOverflow 0x82)) ∧
        (s.pc.toNat < 253 → step s = .next { s with x := s.x.set a.toNat imm, pc := s.pc + 3 })

/-- `41_hlt_ldi_prn.md` R93, whole. -/
def Obligations.StepPrnRule : Prop :=
  ∀ s : State, s.run = .running → s.memRead s.pc.toNat = some 0x47 →
    (s.pc.toNat = 255 → step s = .next (s.raise .operandFetch 0x47)) ∧
    ∀ a, s.memRead (s.pc.toNat + 1) = some a →
      (7 < a.toNat → step s = .next (s.raise .registerIndex 0x47)) ∧
      ∀ ha : a.toNat < 8,
        (s.pc.toNat = 254 → step s = .next ({ s with out := s.out ++ [s.x[a.toNat]] }.raise .pcOverflow 0x47)) ∧
        (s.pc.toNat < 254 → step s = .next { s with out := s.out ++ [s.x[a.toNat]], pc := s.pc + 2 })

/-- `42_alu.md` R102, whole. -/
def Obligations.StepAddRule : Prop :=
  ∀ s : State, s.run = .running → s.memRead s.pc.toNat = some 0xA0 →
    (254 ≤ s.pc.toNat → step s = .next (s.raise .operandFetch 0xA0)) ∧
    ∀ a b, s.memRead (s.pc.toNat + 1) = some a → s.memRead (s.pc.toNat + 2) = some b →
      (7 < a.toNat ∨ 7 < b.toNat → step s = .next (s.raise .registerIndex 0xA0)) ∧
      ∀ (ha : a.toNat < 8) (hb : b.toNat < 8) (v : Byte), v.toNat = (s.x[a.toNat].toNat + s.x[b.toNat].toNat) % 256 →
        (s.pc.toNat = 253 → step s = .next ({ s with x := s.x.set a.toNat v }.raise .pcOverflow 0xA0)) ∧
        (s.pc.toNat < 253 → step s = .next { s with x := s.x.set a.toNat v, pc := s.pc + 3 })

/-- `42_alu.md` R103, whole. -/
def Obligations.StepMulRule : Prop :=
  ∀ s : State, s.run = .running → s.memRead s.pc.toNat = some 0xA2 →
    (254 ≤ s.pc.toNat → step s = .next (s.raise .operandFetch 0xA2)) ∧
    ∀ a b, s.memRead (s.pc.toNat + 1) = some a → s.memRead (s.pc.toNat + 2) = some b →
      (7 < a.toNat ∨ 7 < b.toNat → step s = .next (s.raise .registerIndex 0xA2)) ∧
      ∀ (ha : a.toNat < 8) (hb : b.toNat < 8) (v : Byte), v.toNat = (s.x[a.toNat].toNat * s.x[b.toNat].toNat) % 256 →
        (s.pc.toNat = 253 → step s = .next ({ s with x := s.x.set a.toNat v }.raise .pcOverflow 0xA2)) ∧
        (s.pc.toNat < 253 → step s = .next { s with x := s.x.set a.toNat v, pc := s.pc + 3 })

/-- `42_alu.md` section 2, CMP, whole (the rule marks the unsigned order as the spec's decision D3). -/
def Obligations.StepCmpRule : Prop :=
  ∀ s : State, s.run = .running → s.memRead s.pc.toNat = some 0xA7 →
    (254 ≤ s.pc.toNat → step s = .next (s.raise .operandFetch 0xA7)) ∧
    ∀ a b, s.memRead (s.pc.toNat + 1) = some a → s.memRead (s.pc.toNat + 2) = some b →
      (7 < a.toNat ∨ 7 < b.toNat → step s = .next (s.raise .registerIndex 0xA7)) ∧
      ∀ (ha : a.toNat < 8) (hb : b.toNat < 8) (f : Byte),
        (s.x[a.toNat].toNat = s.x[b.toNat].toNat → f = 0x01) → (s.x[b.toNat].toNat < s.x[a.toNat].toNat → f = 0x02) →
        (s.x[a.toNat].toNat < s.x[b.toNat].toNat → f = 0x04) →
        (s.pc.toNat = 253 → step s = .next ({ s with fl := f }.raise .pcOverflow 0xA7)) ∧
        (s.pc.toNat < 253 → step s = .next { s with fl := f, pc := s.pc + 3 })

/-- `43_stack.md` section 2, PUSH, whole (the rule marks PUSH R7 as the spec's decision D17): `q` is the new SP and the address
stored to, wrapping below 0; the store may hit any byte, those of this instruction included. -/
def Obligations.StepPushRule : Prop :=
  ∀ s : State, s.run = .running → s.memRead s.pc.toNat = some 0x45 →
    (s.pc.toNat = 255 → step s = .next (s.raise .operandFetch 0x45)) ∧
    ∀ a, s.memRead (s.pc.toNat + 1) = some a →
      (7 < a.toNat → step s = .next (s.raise .registerIndex 0x45)) ∧
      ∀ (ha : a.toNat < 8) (q v : Byte), q.toNat = (s.x[7].toNat + 255) % 256 →
        v = (if a.toNat = 7 then q else s.x[a.toNat]) →
        (s.pc.toNat = 254 →
          step s = .next ({ s with x := s.x.set 7 q, mem := s.mem.write q v }.raise .pcOverflow 0x45)) ∧
        (s.pc.toNat < 254 →
          step s = .next { s with x := s.x.set 7 q, mem := s.mem.write q v, pc := s.pc + 2 })

/-- `43_stack.md` section 2, POP, whole (the rule marks POP R7 as the spec's decision D17). -/
def Obligations.StepPopRule : Prop :=
  ∀ s : State, s.run = .running → s.memRead s.pc.toNat = some 0x46 →
    (s.pc.toNat = 255 → step s = .next (s.raise .operandFetch 0x46)) ∧
    ∀ a, s.memRead (s.pc.toNat + 1) = some a →
      (7 < a.toNat → step s = .next (s.raise .registerIndex 0x46)) ∧
      ∀ (ha : a.toNat < 8) (v q : Byte), s.memRead s.x[7].toNat = some v →
        q.toNat = ((if a.toNat = 7 then v.toNat else s.x[7].toNat) + 1) % 256 →
        (s.pc.toNat = 254 →
          step s = .next ({ s with x := (s.x.set a.toNat v).set 7 q }.raise .pcOverflow 0x46)) ∧
        (s.pc.toNat < 254 →
          step s = .next { s with x := (s.x.set a.toNat v).set 7 q, pc := s.pc + 2 })

/-- `44_control_transfer.md` section 2, CALL, whole (the rule marks the fault at 254 as the spec's decision D8 and CALL R7 as
D17). -/
def Obligations.StepCallRule : Prop :=
  ∀ s : State, s.run = .running → s.memRead s.pc.toNat = some 0x50 →
    (s.pc.toNat = 255 → step s = .next (s.raise .operandFetch 0x50)) ∧
    ∀ a, s.memRead (s.pc.toNat + 1) = some a →
      (7 < a.toNat → step s = .next (s.raise .registerIndex 0x50)) ∧
      ∀ (ha : a.toNat < 8) (q ra : Byte), q.toNat = (s.x[7].toNat + 255) % 256 →
        (s.pc.toNat = 254 → step s = .next (s.raise .pcOverflow 0x50)) ∧
        (ra.toNat = s.pc.toNat + 2 →
          step s = .next { s with x := s.x.set 7 q
                                  mem := s.mem.write q ra
                                  pc := if a.toNat = 7 then q else s.x[a.toNat] })

/-- `44_control_transfer.md` R122, whole: no fault at any address. -/
def Obligations.StepRetRule : Prop :=
  ∀ (s : State) (v q : Byte), s.run = .running → s.memRead s.pc.toNat = some 0x11 →
    s.memRead s.x[7].toNat = some v → q.toNat = (s.x[7].toNat + 1) % 256 →
    step s = .next { s with pc := v, x := s.x.set 7 q }

/-- `44_control_transfer.md` R124, whole: legal at 254 too. -/
def Obligations.StepJmpRule : Prop :=
  ∀ s : State, s.run = .running → s.memRead s.pc.toNat = some 0x54 →
    (s.pc.toNat = 255 → step s = .next (s.raise .operandFetch 0x54)) ∧
    ∀ a, s.memRead (s.pc.toNat + 1) = some a →
      (7 < a.toNat → step s = .next (s.raise .registerIndex 0x54)) ∧
      ∀ ha : a.toNat < 8, step s = .next { s with pc := s.x[a.toNat] }

/-- `44_control_transfer.md` section 3, JEQ, whole (the rule marks the fall through as the spec's decision D10). -/
def Obligations.StepJeqRule : Prop :=
  ∀ s : State, s.run = .running → s.memRead s.pc.toNat = some 0x55 →
    (s.pc.toNat = 255 → step s = .next (s.raise .operandFetch 0x55)) ∧
    ∀ a, s.memRead (s.pc.toNat + 1) = some a →
      (7 < a.toNat → step s = .next (s.raise .registerIndex 0x55)) ∧
      ∀ ha : a.toNat < 8,
        (s.fl.getLsbD 0 = true → step s = .next { s with pc := s.x[a.toNat] }) ∧
        (s.fl.getLsbD 0 = false → s.pc.toNat = 254 → step s = .next (s.raise .pcOverflow 0x55)) ∧
        (s.fl.getLsbD 0 = false → s.pc.toNat < 254 → step s = .next { s with pc := s.pc + 2 })

/-- `44_control_transfer.md` R128, whole. -/
def Obligations.StepJneRule : Prop :=
  ∀ s : State, s.run = .running → s.memRead s.pc.toNat = some 0x56 →
    (s.pc.toNat = 255 → step s = .next (s.raise .operandFetch 0x56)) ∧
    ∀ a, s.memRead (s.pc.toNat + 1) = some a →
      (7 < a.toNat → step s = .next (s.raise .registerIndex 0x56)) ∧
      ∀ ha : a.toNat < 8,
        (s.fl.getLsbD 0 = false → step s = .next { s with pc := s.x[a.toNat] }) ∧
        (s.fl.getLsbD 0 = true → s.pc.toNat = 254 → step s = .next (s.raise .pcOverflow 0x56)) ∧
        (s.fl.getLsbD 0 = true → s.pc.toNat < 254 → step s = .next { s with pc := s.pc + 2 })

/-! ## Frames: what an instruction leaves unchanged whenever `exec` gives a next state, in every state and with any operands

The run state and the fault record are unchanged or the instruction raised a fault (the record then names it, by its own opcode,
log entry 13); HLT halts. -/

/-- `10_state.md` sections 1, 3, 6: LDI, ADD, MUL change no register but `x[a]`, no flag, no memory, no output. -/
def Obligations.FrameOfLdiAddMul : Prop :=
  ∀ (s t : State) (a b : Byte), ∀ i ∈ [Instr.ldi a b, .add a b, .mul a b], exec i s = .next t →
    (∀ r : RegIdx, r.val ≠ a.toNat → t.x[r] = s.x[r]) ∧ t.fl = s.fl ∧ t.out = s.out ∧
    (∀ n, t.memRead n = s.memRead n) ∧
    ((t.run = s.run ∧ t.flt = s.flt) ∨ ∃ c, t.run = .faulted ∧ t.flt = some ⟨c, s.pc, i.opcode⟩)

/-- `10_state.md` sections 1, 3, 6: HLT, PRN, CMP, JMP, JEQ, JNE change no register and no memory; only CMP may change FL, only
PRN the output; HLT sets the run state and keeps the fault record. -/
def Obligations.FrameOfHltPrnCmpAndJumps : Prop :=
  ∀ (s t : State) (a b : Byte), ∀ i ∈ [Instr.hlt, .prn a, .cmp a b, .jmp a, .jeq a, .jne a], exec i s = .next t →
    t.x = s.x ∧ (∀ n, t.memRead n = s.memRead n) ∧
    (i ≠ .cmp a b → t.fl = s.fl) ∧ (i ≠ .prn a → t.out = s.out) ∧
    (if i = .hlt then t.run = .halted ∧ t.flt = s.flt
     else (t.run = s.run ∧ t.flt = s.flt) ∨ ∃ c, t.run = .faulted ∧ t.flt = some ⟨c, s.pc, i.opcode⟩)

/-- `10_state.md` sections 1, 3, 6: POP changes no register but its destination and SP, RET none but SP; neither changes a flag,
memory or the output. -/
def Obligations.FrameOfPopAndRet : Prop :=
  ∀ (s t : State) (a : Byte), ∀ i ∈ [Instr.pop a, .ret], exec i s = .next t →
    (∀ r : RegIdx, r ≠ 7 → (i = .pop a → r.val ≠ a.toNat) → t.x[r] = s.x[r]) ∧ t.fl = s.fl ∧ t.out = s.out ∧
    (∀ n, t.memRead n = s.memRead n) ∧
    ((t.run = s.run ∧ t.flt = s.flt) ∨ ∃ c, t.run = .faulted ∧ t.flt = some ⟨c, s.pc, i.opcode⟩)

/-- `10_state.md` sections 1, 3, 5, 6: PUSH and CALL change no register but SP, no flag, no output, and no byte of memory but the
one at the address stored to, which is SP after the decrement (`State.decSp`, the meaning's own operation). -/
def Obligations.FrameOfPushAndCall : Prop :=
  ∀ (s t : State) (a : Byte), ∀ i ∈ [Instr.push a, .call a], exec i s = .next t →
    (∀ r : RegIdx, r ≠ 7 → t.x[r] = s.x[r]) ∧ t.fl = s.fl ∧ t.out = s.out ∧
    (∀ n, n ≠ s.decSp.sp.toNat → t.memRead n = s.memRead n) ∧
    ((t.run = s.run ∧ t.flt = s.flt) ∨ ∃ c, t.run = .faulted ∧ t.flt = some ⟨c, s.pc, i.opcode⟩)

/-! ## Invariants -/

/-- `10_state.md` sections 3 and 4, `60_exceptions.md` section 4, `42_alu.md` section 3, and the canonical form of memory
(log entry 9): every step keeps the invariant, from every state that has it. -/
def Obligations.StepKeepsTheInvariant : Prop :=
  ∀ s t : State, s.Inv → step s = .next t → t.Inv

/-- The invariant holds at reset and of every launch state. -/
def Obligations.ResetAndLaunchHaveTheInvariant : Prop :=
  State.reset.Inv ∧ ∀ (image : List Byte) (s : State), State.launch image = .next s → s.Inv

/-- The model's representation of memory (log entry 9): two memories in canonical form that read alike are equal data. -/
def Obligations.CanonicalMemoriesThatReadAlikeAreEqual : Prop :=
  ∀ m n : Memory, m.wf → n.wf → (∀ a, m.read a = n.read a) → m = n

/-- `10_state.md` section 3 (R18, on the spec's decision D22): FL stays one of its four values and never returns to 0. -/
def Obligations.FlagsStayLegalAndNeverReturnToZero : Prop :=
  ∀ s t : State, s.fl ∈ [0x00, 0x01, 0x02, 0x04] → step s = .next t →
    t.fl ∈ [0x00, 0x01, 0x02, 0x04] ∧ (s.fl ≠ 0x00 → t.fl ≠ 0x00)

/-! ## Rules about the whole machine -/

/-- `10_state.md` R17: only CMP (0xA7) writes FL, and a CMP that reaches its effect leaves exactly one of the three bits; FL is
read only by JEQ (0x55) and JNE (0x56), and of it only bit 0. So replacing FL by any `f`, with bit 0 kept where the instruction is
JEQ or JNE, changes nothing but FL itself, and not even that after a CMP that reaches its effect. -/
def Obligations.FlagsAreWrittenByCmpAndReadInBitZeroByJeqJne : Prop :=
  ∀ s t : State, s.run = .running → step s = .next t →
    (s.fetchOpcode ≠ 0xA7 → t.fl = s.fl) ∧
    (s.fetchOpcode = 0xA7 → s.firstFault = none ∨ s.firstFault = some .pcOverflow → t.fl ∈ [0x01, 0x02, 0x04]) ∧
    ∀ f : Byte, (s.fetchOpcode = 0x55 ∨ s.fetchOpcode = 0x56 → f.getLsbD 0 = s.fl.getLsbD 0) →
      step { s with fl := f } = .next
        { t with fl := if s.fetchOpcode = 0xA7 ∧ (s.firstFault = none ∨ s.firstFault = some .pcOverflow) then t.fl else f }

/-- `10_state.md` section 5 and `20_memory.md` section 1: a step that is no PUSH (0x45) and no CALL (0x50) leaves memory as it
is, and those two change at most the cell below SP. -/
def Obligations.OnlyPushAndCallWriteMemory : Prop :=
  ∀ s t : State, s.run = .running → step s = .next t →
    (s.fetchOpcode ≠ 0x45 → s.fetchOpcode ≠ 0x50 → t.mem = s.mem) ∧
    ∀ n, n ≠ (s.x[7].toNat + 255) % 256 → t.memRead n = s.memRead n

/-- `10_state.md` section 6 (R21; the form of the output is the spec's decision D14): the output only grows, by at most the one
value PRN (0x47) emits, and nothing reads it: a step from the same state with any other output differs in the output alone. -/
def Obligations.OutputIsAppendOnlyByPrnAndNeverRead : Prop :=
  ∀ s t : State, s.run = .running → step s = .next t →
    (t.out = s.out ∨ s.fetchOpcode = 0x47 ∧ ∃ r : RegIdx, s.fetchOpA = some (BitVec.ofNat 8 r) ∧ t.out = s.out ++ [s.x[r]]) ∧
    ∀ o : List Byte, step { s with out := o } = .next { t with out := o ++ t.out.drop s.out.length }

/-- `70_reset_and_hazards.md` section 3 and `10_state.md` section 4 (R168, R19): a run that has ended in HALTED has taken, as its
last step, an HLT fetched at the PC of a running state. -/
def Obligations.CompletedRunsEndWithHlt : Prop :=
  ∀ s t : State, s.run = .running → CompletesIn s t →
    ∃ (k : Nat) (u : State), Reaches k s u ∧ u.run = .running ∧ u.memRead u.pc.toNat = some 0x01 ∧ step u = .next t

/-- `40_execution_engine.md` section 5 (R81, R83; FAULTED is the spec's decision D11): a run has exactly one of three outcomes,
and its end state is unique. -/
def Obligations.RunsHaveExactlyOneOutcome : Prop :=
  ∀ s : State,
    ((∃ t, CompletesIn s t) ∨ (∃ t, FaultsIn s t) ∨ RunsForEver s) ∧
    (∀ t u, CompletesIn s t → CompletesIn s u → t = u) ∧
    (∀ t u, FaultsIn s t → FaultsIn s u → t = u) ∧
    (∀ t u, CompletesIn s t → ¬ FaultsIn s u) ∧
    (∀ t, CompletesIn s t ∨ FaultsIn s t → ¬ RunsForEver s)

/-- `40_execution_engine.md` section 5 (R82; no watchdog is the spec's decision D15): a JMP to itself runs for ever and is no
fault. -/
def Obligations.JumpToItselfRunsForEver : Prop :=
  ∀ (s : State) (a : Byte) (ha : a.toNat < 8), s.run = .running →
    s.memRead s.pc.toNat = some 0x54 → s.memRead (s.pc.toNat + 1) = some a → s.x[a.toNat] = s.pc →
    step s = .next s ∧ RunsForEver s

/-- `43_stack.md` section 3 (R113, which the spec marks as derived): PUSH Ra, POP Rc, one after the other in memory and not
overwritten by the push, copy `x[a]` to `x[c]` and leave SP as it was; with `c = a` every register is as it was. -/
def Obligations.PushThenPopCopiesAndRestoresStackPointer : Prop :=
  ∀ (s : State) (a c : Byte) (_ : a.toNat < 7) (_ : c.toNat < 7), s.mem.wf → s.run = .running → s.pc.toNat ≤ 251 →
    s.memRead s.pc.toNat = some 0x45 → s.memRead (s.pc.toNat + 1) = some a →
    s.memRead (s.pc.toNat + 2) = some 0x46 → s.memRead (s.pc.toNat + 3) = some c →
    (∀ k < 4, (s.x[7] - 1).toNat ≠ s.pc.toNat + k) →
    Reaches 2 s { s with x := s.x.set c.toNat s.x[a.toNat]
                         mem := s.mem.write (s.x[7] - 1) s.x[a.toNat]
                         pc := s.pc + 4 }

/-- `44_control_transfer.md` section 2 (R123, which the spec marks as derived): if CALL has run at `p` with SP `q`, any later
state in which SP is again what CALL left and the cell it points at holds what CALL stored returns, by RET, to `p + 2` with SP
back at `q`. -/
def Obligations.RetAfterCallReturnsPastTheCall : Prop :=
  ∀ (s t u : State) (a : Byte), a.toNat < 8 → s.mem.wf → s.pc.toNat ≤ 253 → exec (.call a) s = .next t →
    u.x[7] = t.x[7] → u.memRead u.x[7].toNat = t.memRead t.x[7].toNat →
    exec .ret u = .next { u with pc := s.pc + 2, x := u.x.set 7 s.x[7] }

/-- `44_control_transfer.md` section 3 (R127, which the spec marks as derived): after CMP Ra,Rb, JEQ Rc goes to `x[c]` and JNE Rc
falls through when `x[a] = x[b]` held, and the other way round when it did not. -/
def Obligations.CmpThenJeqAndJneAreComplements : Prop :=
  ∀ (s t : State) (a b c : Byte) (ha : a.toNat < 8) (hb : b.toNat < 8) (hc : c.toNat < 8), s.pc.toNat ≤ 250 →
    exec (.cmp a b) s = .next t →
    (s.x[a.toNat] = s.x[b.toNat] →
      exec (.jeq c) t = .next { t with pc := s.x[c.toNat] } ∧ exec (.jne c) t = .next { t with pc := s.pc + 5 }) ∧
    (s.x[a.toNat] ≠ s.x[b.toNat] →
      exec (.jeq c) t = .next { t with pc := s.pc + 5 } ∧ exec (.jne c) t = .next { t with pc := s.x[c.toNat] })

/-- `20_memory.md` section 4 (R44, the spec's decision D21): the byte PUSH or CALL stores is the byte the next fetch at that
address sees. -/
def Obligations.StoredByteIsWhatTheNextFetchSees : Prop :=
  ∀ (s t : State) (a : Byte) (ha : a.toNat < 8), s.mem.wf → s.pc.toNat ≤ 253 →
    (exec (.push a) s = .next t → { t with pc := t.x[7] }.fetchOpcode = t.x[a.toNat]) ∧
    (exec (.call a) s = .next t → { t with pc := t.x[7] }.fetchOpcode = s.pc + 2)

/-- `42_alu.md` section 4 (the laws of R106, which the spec marks as derived): of the sums and products ADD and MUL write and of
the flags CMP writes. -/
def Obligations.ArithmeticLaws : Prop :=
  (∀ u v : Byte, aluAdd u v = aluAdd v u ∧ aluMul u v = aluMul v u) ∧
  (∀ u : Byte, aluAdd u 0 = u ∧ aluMul u 1 = u ∧ aluMul u 0 = 0) ∧
  (∀ u : Byte, aluAdd u (BitVec.ofNat 8 ((256 - u.toNat) % 256)) = 0 ∧
    aluMul u 255 = BitVec.ofNat 8 ((256 - u.toNat) % 256)) ∧
  (∀ u v : Byte, (compareFlags u v = 0x01 ↔ u = v) ∧ (compareFlags u v = 0x02 ↔ v.toNat < u.toNat) ∧
    (compareFlags u v = 0x04 ↔ u.toNat < v.toNat)) ∧
  (∀ u v : Byte, (compareFlags u v = 0x02 ↔ compareFlags v u = 0x04) ∧ (compareFlags u v = 0x01 ↔ compareFlags v u = 0x01))
end

