-- ==== Sys2Proof/Laws/Decode.lean ====
section
/-!
SUPPORT. The laws of the dispatch table and of decoding: what each says once, so that no later proof unfolds the table.
-/

namespace Sys2Proof

/-! ## The dispatch table against the opcode column -/

@[simp] theorem dispatch_opcode (m : Mnemonic) : dispatch m.opcode = some m := by cases m <;> rfl

/-- A key found in an association list stands there. -/
theorem mem_of_lookup_eq_some {l : List (Byte × Mnemonic)} {ir : Byte} {m : Mnemonic} (h : l.lookup ir = some m) :
    (ir, m) ∈ l := by
  induction l with
  | nil => simp at h
  | cons e l ih =>
    obtain ⟨k, n⟩ := e
    rw [List.lookup_cons] at h
    split at h
    · rename_i hk
      cases h
      cases (beq_iff_eq.1 hk)
      exact List.mem_cons_self
    · exact List.mem_cons_of_mem _ (ih h)

theorem opcode_of_dispatch {ir : Byte} {m : Mnemonic} (h : dispatch ir = some m) : m.opcode = ir := by
  have table : ∀ e ∈ dispatchTable, e.2.opcode = e.1 := by decide
  exact table _ (mem_of_lookup_eq_some h)

theorem dispatch_eq_some_iff {ir : Byte} {m : Mnemonic} : dispatch ir = some m ↔ m.opcode = ir :=
  ⟨opcode_of_dispatch, fun h => h ▸ dispatch_opcode m⟩

theorem dispatch_eq_none_iff {ir : Byte} : dispatch ir = none ↔ ∀ m : Mnemonic, m.opcode ≠ ir := by
  simp only [Option.eq_none_iff_forall_ne_some, ne_eq, dispatch_eq_some_iff]

/-! ## The opcode's fields, evaluated once per mnemonic -/

theorem operandCount_opcode (m : Mnemonic) : operandCount m.opcode =
    match m with
    | .hlt => 0 | .ret => 0
    | .prn => 1 | .push => 1 | .pop => 1 | .call => 1 | .jmp => 1 | .jeq => 1 | .jne => 1
    | .ldi => 2 | .add => 2 | .mul => 2 | .cmp => 2 := by
  cases m <;> decide

theorem setsPc_opcode (m : Mnemonic) : setsPc m.opcode =
    match m with
    | .call => true | .ret => true | .jmp => true | .jeq => true | .jne => true
    | .hlt => false | .prn => false | .push => false | .pop => false
    | .ldi => false | .add => false | .mul => false | .cmp => false := by
  cases m <;> decide

/-! ## Building an instruction from its operands -/

theorem Mnemonic.build_mnemonic {m : Mnemonic} {opa opb : Option Byte} {i : Instr} (h : m.build opa opb = some i) :
    i.mnemonic = m := by
  cases m <;> cases opa <;> cases opb <;> simp [Mnemonic.build] at h <;> subst h <;> rfl

/-- `build` misses an operand exactly when the opcode's count says it is used and it is `NONE`. -/
theorem Mnemonic.build_eq_none_iff {m : Mnemonic} {opa opb : Option Byte} :
    m.build opa opb = none ↔ (1 ≤ operandCount m.opcode ∧ opa = none) ∨ (operandCount m.opcode = 2 ∧ opb = none) := by
  cases m <;> cases opa <;> cases opb <;> simp [Mnemonic.build, operandCount, Mnemonic.opcode]

/-! ## `decode` -/

theorem decode_of_opcode (m : Mnemonic) (opa opb : Option Byte) :
    decode m.opcode opa opb = match m.build opa opb with
      | none => .operandMissing m
      | some i => .instr i := by
  rw [decode, dispatch_opcode] <;> rfl

theorem decode_eq_instr_iff {ir : Byte} {opa opb : Option Byte} {i : Instr} :
    decode ir opa opb = .instr i ↔ i.opcode = ir ∧ i.mnemonic.build opa opb = some i := by
  constructor
  · intro h
    unfold decode at h
    split at h
    · cases h
    · split at h
      · cases h
      · rename_i m hm _ j hj
        cases h
        have := Mnemonic.build_mnemonic hj
        exact ⟨by rw [Instr.opcode, this, opcode_of_dispatch hm], by rw [this, hj]⟩
  · rintro ⟨rfl, h⟩
    rw [Instr.opcode, decode_of_opcode, h]

theorem decode_eq_illegal_iff {ir jr : Byte} {opa opb : Option Byte} :
    decode ir opa opb = .illegal jr ↔ dispatch ir = none ∧ jr = ir := by
  unfold decode
  split
  · simp [*, eq_comm]
  · split <;> simp [*]

theorem decode_eq_operandMissing_iff {ir : Byte} {opa opb : Option Byte} {m : Mnemonic} :
    decode ir opa opb = .operandMissing m ↔ m.opcode = ir ∧ m.build opa opb = none := by
  rw [← dispatch_eq_some_iff]
  unfold decode
  split
  · simp [*]
  · rename_i n hn
    split <;> simp [*]
    · rintro rfl
      assumption
    · rintro rfl
      simp [*]

/-- The register check is not `decode`'s. -/
theorem decode_ne_badRegister (ir : Byte) (opa opb : Option Byte) (m : Mnemonic) (r : Byte) :
    decode ir opa opb ≠ .badRegister m r := by
  unfold decode
  split
  · simp
  · split <;> simp

end Sys2Proof
end

