-- ==== Sys2Proof/Laws/Memory.lean ====
section
/-!
SUPPORT. The laws of memory (`20_memory.md` R30 to R32): read after write, every other cell alone, and the canonical form, which
every memory operation keeps.
-/

namespace Sys2Proof.Machine

/-! ## Reading -/

@[simp] theorem Memory.cell_nil (a : Nat) : Memory.cell [] a = Config.resetCell := rfl

theorem Memory.cell_cons (k : Nat) (v : Byte) (m : Memory) (a : Nat) :
    Memory.cell ((k, v) :: m) a = if k = a then v else Memory.cell m a := rfl

theorem Memory.read_of_lt (m : Memory) {a : Nat} (h : a < 256) : m.read a = some (m.cell a) := if_pos h

theorem Memory.read_of_le (m : Memory) {a : Nat} (h : 256 ≤ a) : m.read a = none := if_neg (by simpa using h)

theorem Memory.read_eq_some {m : Memory} {a : Nat} {v : Byte} : m.read a = some v ↔ a < 256 ∧ m.cell a = v := by
  simp [Memory.read]

/-- A cell below every listed address holds the reset value. -/
theorem Memory.cell_of_all_lt {m : Memory} {a : Nat} (h : ∀ c ∈ m, a < c.1) : m.cell a = Config.resetCell := by
  induction m with
  | nil => rfl
  | cons c m ih =>
    have hc : c.1 ≠ a := Nat.ne_of_gt (h c (by simp))
    rw [Memory.cell_cons, if_neg hc, ih fun d hd => h d (by simp [hd])]

/-! ## The canonical form of a longer memory -/

theorem Memory.wf_nil : Memory.wf [] := by simp [Memory.wf]

theorem Memory.wf_cons {c : Host.Cell} {m : Memory} :
    Memory.wf (c :: m) ↔ (∀ d ∈ m, c.1 < d.1) ∧ c.1 < 256 ∧ c.2 ≠ Config.resetCell ∧ m.wf := by
  simp only [Memory.wf, List.pairwise_cons, List.forall_mem_cons]
  tauto

/-! ## Writing -/

/-- Writing leaves every other cell alone, in every memory. -/
theorem Memory.cell_insert_of_ne (m : Memory) {a b : Nat} (h : b ≠ a) (v : Byte) : (m.insert a v).cell b = m.cell b := by
  induction m with
  | nil =>
    unfold Memory.insert
    split
    · rfl
    · rw [Memory.cell_cons, if_neg (Ne.symm h)]
  | cons c m ih =>
    obtain ⟨k, w⟩ := c
    unfold Memory.insert
    split_ifs with h1 h2 h3 h4
    · rfl
    · rw [Memory.cell_cons, if_neg (Ne.symm h)]
    · rw [Memory.cell_cons, if_neg (by omega)]
    · rw [Memory.cell_cons, Memory.cell_cons, if_neg (Ne.symm h), if_neg (by omega)]
    · rw [Memory.cell_cons, Memory.cell_cons, ih]

/-- The written cell holds the written value. -/
theorem Memory.cell_insert_self {m : Memory} (hm : m.wf) (a : Nat) (v : Byte) : (m.insert a v).cell a = v := by
  induction m with
  | nil =>
    unfold Memory.insert
    split
    · simp [*]
    · simp [Memory.cell_cons]
  | cons c m ih =>
    obtain ⟨k, w⟩ := c
    obtain ⟨hlt, -, -, hm'⟩ := Memory.wf_cons.1 hm
    unfold Memory.insert
    split_ifs with h1 h2 h3 h4
    · rw [h2]
      refine Memory.cell_of_all_lt fun d hd => ?_
      rcases List.mem_cons.1 hd with rfl | hd
      · exact h1
      · exact h1.trans (hlt d hd)
    · simp [Memory.cell_cons]
    · rw [h4]
      exact Memory.cell_of_all_lt fun d hd => h3 ▸ hlt d hd
    · simp [Memory.cell_cons]
    · rw [Memory.cell_cons, if_neg (by omega), ih hm']

theorem Memory.cell_insert {m : Memory} (hm : m.wf) (a b : Nat) (v : Byte) :
    (m.insert a v).cell b = if b = a then v else m.cell b := by
  split
  · subst b
    exact Memory.cell_insert_self hm a v
  · exact m.cell_insert_of_ne ‹_› v

/-- Every listed address after a write was listed before or is the one written. -/
theorem Memory.mem_insert {m : Memory} {a : Nat} {v : Byte} {c : Host.Cell} (h : c ∈ m.insert a v) :
    c ∈ m ∨ c = (a, v) ∧ v ≠ Config.resetCell := by
  induction m with
  | nil =>
    unfold Memory.insert at h
    split at h
    · simp at h
    · exact .inr ⟨by simpa using h, ‹_›⟩
  | cons d m ih =>
    obtain ⟨k, w⟩ := d
    unfold Memory.insert at h
    split_ifs at h
    · exact .inl h
    · exact (List.mem_cons.1 h).elim (fun e => .inr ⟨e, ‹_›⟩) .inl
    · exact .inl (List.mem_cons_of_mem _ h)
    · exact (List.mem_cons.1 h).elim (fun e => .inr ⟨e, ‹_›⟩) fun e => .inl (List.mem_cons_of_mem _ e)
    · rcases List.mem_cons.1 h with rfl | h
      · exact .inl (by simp)
      · exact (ih h).imp_left (List.mem_cons_of_mem _)

/-- A write inside memory keeps the canonical form. -/
theorem Memory.wf_insert {m : Memory} (hm : m.wf) {a : Nat} (ha : a < 256) (v : Byte) : (m.insert a v).wf := by
  induction m with
  | nil =>
    unfold Memory.insert
    split
    · exact Memory.wf_nil
    · exact Memory.wf_cons.2 ⟨by simp, ha, ‹_›, Memory.wf_nil⟩
  | cons c m ih =>
    obtain ⟨k, w⟩ := c
    obtain ⟨hlt, hk, hw, hm'⟩ := Memory.wf_cons.1 hm
    unfold Memory.insert
    split_ifs with h1 h2 h3 h4
    · exact hm
    · refine Memory.wf_cons.2 ⟨fun d hd => ?_, ha, h2, hm⟩
      rcases List.mem_cons.1 hd with rfl | hd
      · exact h1
      · exact h1.trans (hlt d hd)
    · exact hm'
    · exact Memory.wf_cons.2 ⟨fun d hd => h3 ▸ hlt d hd, ha, h4, hm'⟩
    · refine Memory.wf_cons.2 ⟨fun d hd => ?_, hk, hw, ih hm'⟩
      rcases Memory.mem_insert hd with hd | ⟨rfl, -⟩
      · exact hlt d hd
      · show k < a
        omega

/-! ## `read` after `write`, and the loader's `place` -/

theorem Memory.wf_write {m : Memory} (hm : m.wf) (a v : Byte) : (m.write a v).wf := Memory.wf_insert hm a.isLt v

theorem Memory.read_write {m : Memory} (hm : m.wf) (a v : Byte) (n : Nat) :
    (m.write a v).read n = if n = a.toNat then some v else m.read n := by
  rcases Nat.lt_or_ge n 256 with h | h
  · rw [Memory.read_of_lt _ h, Memory.read_of_lt _ h, Memory.write, Memory.cell_insert hm]
    split <;> rfl
  · rw [Memory.read_of_le _ h, Memory.read_of_le _ h, if_neg (by have := a.isLt; omega)]

theorem Memory.read_write_of_ne (m : Memory) {a : Byte} {n : Nat} (h : n ≠ a.toNat) (v : Byte) :
    (m.write a v).read n = m.read n := by
  simp only [Memory.read, Memory.write, Memory.cell_insert_of_ne m h v]

theorem Memory.wf_place {m : Memory} (hm : m.wf) (a : Nat) (bytes : List Byte) : (m.place a bytes).wf := by
  induction bytes generalizing m a with
  | nil => exact hm
  | cons v rest ih =>
    unfold Memory.place
    split
    · exact ih (Memory.wf_write hm _ v) _
    · exact ih hm _

/-- One write of the loader: the cell at `a`, if there is one, and no other. -/
theorem Memory.read_place_one {m : Memory} (hm : m.wf) (a : Nat) (v : Byte) {n : Nat} (hn : n < 256) :
    (if a < Config.memSize then m.write (BitVec.ofNat 8 a) v else m).read n = if n = a then some v else m.read n := by
  by_cases ha : a < 256
  · rw [if_pos ha, Memory.read_write hm, BitVec.toNat_ofNat, Nat.mod_eq_of_lt ha]
  · rw [if_neg ha, if_neg (by omega)]

/-- What memory reads as after bytes are placed from `a` up. -/
theorem Memory.read_place {m : Memory} (hm : m.wf) (a : Nat) (bytes : List Byte) {n : Nat} (hn : n < 256) :
    (m.place a bytes).read n =
      if a ≤ n ∧ n < a + bytes.length then some (bytes[n - a]?.getD 0) else m.read n := by
  induction bytes generalizing m a with
  | nil => rw [Memory.place, if_neg (by simp)]
  | cons v rest ih =>
    have hw : (if a < Config.memSize then m.write (BitVec.ofNat 8 a) v else m).wf := by
      split
      · exact Memory.wf_write hm _ v
      · exact hm
    rw [Memory.place, ih hw, Memory.read_place_one hm a v hn]
    rcases Nat.lt_trichotomy n a with h | rfl | h
    · rw [if_neg (by omega), if_neg (by omega), if_neg (by omega)]
    · simp
    · obtain ⟨d, rfl⟩ : ∃ d, n = a + d + 1 := ⟨n - a - 1, by omega⟩
      have e1 : a + d + 1 - (a + 1) = d := by omega
      have e2 : a + d + 1 - a = d + 1 := by omega
      simp only [List.length_cons, e1, e2, List.getElem?_cons_succ]
      split_ifs <;> first | rfl | omega

end Sys2Proof.Machine
end

