-- ==== Sys2Proof/Laws/State.lean ====
section
/-!
SUPPORT. The field lemmas of State: one lemma per field per update, and what the accessors read after an update. With them a
proof computes with states without unfolding a record update.
-/

namespace Sys2Proof.Machine

/-! ### `writeReg` -/

@[simp] theorem State.writeReg_x (s : State) (i : RegIdx) (v : Byte) : (s.writeReg i v).x = s.x.set i v := rfl
@[simp] theorem State.writeReg_pc (s : State) (i : RegIdx) (v : Byte) : (s.writeReg i v).pc = s.pc := rfl
@[simp] theorem State.writeReg_fl (s : State) (i : RegIdx) (v : Byte) : (s.writeReg i v).fl = s.fl := rfl
@[simp] theorem State.writeReg_mem (s : State) (i : RegIdx) (v : Byte) : (s.writeReg i v).mem = s.mem := rfl
@[simp] theorem State.writeReg_run (s : State) (i : RegIdx) (v : Byte) : (s.writeReg i v).run = s.run := rfl
@[simp] theorem State.writeReg_flt (s : State) (i : RegIdx) (v : Byte) : (s.writeReg i v).flt = s.flt := rfl
@[simp] theorem State.writeReg_out (s : State) (i : RegIdx) (v : Byte) : (s.writeReg i v).out = s.out := rfl

/-! ### `writePc` -/

@[simp] theorem State.writePc_x (s : State) (v : Byte) : (s.writePc v).x = s.x := rfl
@[simp] theorem State.writePc_pc (s : State) (v : Byte) : (s.writePc v).pc = v := rfl
@[simp] theorem State.writePc_fl (s : State) (v : Byte) : (s.writePc v).fl = s.fl := rfl
@[simp] theorem State.writePc_mem (s : State) (v : Byte) : (s.writePc v).mem = s.mem := rfl
@[simp] theorem State.writePc_run (s : State) (v : Byte) : (s.writePc v).run = s.run := rfl
@[simp] theorem State.writePc_flt (s : State) (v : Byte) : (s.writePc v).flt = s.flt := rfl
@[simp] theorem State.writePc_out (s : State) (v : Byte) : (s.writePc v).out = s.out := rfl

/-! ### `writeFl` -/

@[simp] theorem State.writeFl_x (s : State) (v : Byte) : (s.writeFl v).x = s.x := rfl
@[simp] theorem State.writeFl_pc (s : State) (v : Byte) : (s.writeFl v).pc = s.pc := rfl
@[simp] theorem State.writeFl_fl (s : State) (v : Byte) : (s.writeFl v).fl = v := rfl
@[simp] theorem State.writeFl_mem (s : State) (v : Byte) : (s.writeFl v).mem = s.mem := rfl
@[simp] theorem State.writeFl_run (s : State) (v : Byte) : (s.writeFl v).run = s.run := rfl
@[simp] theorem State.writeFl_flt (s : State) (v : Byte) : (s.writeFl v).flt = s.flt := rfl
@[simp] theorem State.writeFl_out (s : State) (v : Byte) : (s.writeFl v).out = s.out := rfl

/-! ### `memWrite` -/

@[simp] theorem State.memWrite_x (s : State) (a v : Byte) : (s.memWrite a v).x = s.x := rfl
@[simp] theorem State.memWrite_pc (s : State) (a v : Byte) : (s.memWrite a v).pc = s.pc := rfl
@[simp] theorem State.memWrite_fl (s : State) (a v : Byte) : (s.memWrite a v).fl = s.fl := rfl
@[simp] theorem State.memWrite_mem (s : State) (a v : Byte) : (s.memWrite a v).mem = s.mem.write a v := rfl
@[simp] theorem State.memWrite_run (s : State) (a v : Byte) : (s.memWrite a v).run = s.run := rfl
@[simp] theorem State.memWrite_flt (s : State) (a v : Byte) : (s.memWrite a v).flt = s.flt := rfl
@[simp] theorem State.memWrite_out (s : State) (a v : Byte) : (s.memWrite a v).out = s.out := rfl

/-! ### `emit` -/

@[simp] theorem State.emit_x (s : State) (v : Byte) : (s.emit v).x = s.x := rfl
@[simp] theorem State.emit_pc (s : State) (v : Byte) : (s.emit v).pc = s.pc := rfl
@[simp] theorem State.emit_fl (s : State) (v : Byte) : (s.emit v).fl = s.fl := rfl
@[simp] theorem State.emit_mem (s : State) (v : Byte) : (s.emit v).mem = s.mem := rfl
@[simp] theorem State.emit_run (s : State) (v : Byte) : (s.emit v).run = s.run := rfl
@[simp] theorem State.emit_flt (s : State) (v : Byte) : (s.emit v).flt = s.flt := rfl
@[simp] theorem State.emit_out (s : State) (v : Byte) : (s.emit v).out = s.out ++ [v] := rfl

/-! ### `halt` -/

@[simp] theorem State.halt_x (s : State) : (s.halt).x = s.x := rfl
@[simp] theorem State.halt_pc (s : State) : (s.halt).pc = s.pc := rfl
@[simp] theorem State.halt_fl (s : State) : (s.halt).fl = s.fl := rfl
@[simp] theorem State.halt_mem (s : State) : (s.halt).mem = s.mem := rfl
@[simp] theorem State.halt_run (s : State) : (s.halt).run = .halted := rfl
@[simp] theorem State.halt_flt (s : State) : (s.halt).flt = s.flt := rfl
@[simp] theorem State.halt_out (s : State) : (s.halt).out = s.out := rfl

/-! ### `raise` -/

@[simp] theorem State.raise_x (s : State) (c : Cause) (ir : Byte) : (s.raise c ir).x = s.x := rfl
@[simp] theorem State.raise_pc (s : State) (c : Cause) (ir : Byte) : (s.raise c ir).pc = s.pc := rfl
@[simp] theorem State.raise_fl (s : State) (c : Cause) (ir : Byte) : (s.raise c ir).fl = s.fl := rfl
@[simp] theorem State.raise_mem (s : State) (c : Cause) (ir : Byte) : (s.raise c ir).mem = s.mem := rfl
@[simp] theorem State.raise_run (s : State) (c : Cause) (ir : Byte) : (s.raise c ir).run = .faulted := rfl
@[simp] theorem State.raise_flt (s : State) (c : Cause) (ir : Byte) : (s.raise c ir).flt = some ⟨c, s.pc, ir⟩ := rfl
@[simp] theorem State.raise_out (s : State) (c : Cause) (ir : Byte) : (s.raise c ir).out = s.out := rfl

/-! ### Accessors after an update -/

@[simp] theorem State.readReg_writePc (s : State) (v : Byte) (r : RegIdx) : (s.writePc v).readReg r = s.readReg r := rfl
@[simp] theorem State.readReg_writeFl (s : State) (v : Byte) (r : RegIdx) : (s.writeFl v).readReg r = s.readReg r := rfl
@[simp] theorem State.readReg_memWrite (s : State) (a v : Byte) (r : RegIdx) : (s.memWrite a v).readReg r = s.readReg r := rfl
@[simp] theorem State.readReg_emit (s : State) (v : Byte) (r : RegIdx) : (s.emit v).readReg r = s.readReg r := rfl
@[simp] theorem State.readReg_halt (s : State) (r : RegIdx) : (s.halt).readReg r = s.readReg r := rfl
@[simp] theorem State.readReg_raise (s : State) (c : Cause) (ir : Byte) (r : RegIdx) : (s.raise c ir).readReg r = s.readReg r := rfl

@[simp] theorem State.sp_writePc (s : State) (v : Byte) : (s.writePc v).sp = s.sp := rfl
@[simp] theorem State.sp_writeFl (s : State) (v : Byte) : (s.writeFl v).sp = s.sp := rfl
@[simp] theorem State.sp_memWrite (s : State) (a v : Byte) : (s.memWrite a v).sp = s.sp := rfl
@[simp] theorem State.sp_emit (s : State) (v : Byte) : (s.emit v).sp = s.sp := rfl
@[simp] theorem State.sp_halt (s : State) : (s.halt).sp = s.sp := rfl
@[simp] theorem State.sp_raise (s : State) (c : Cause) (ir : Byte) : (s.raise c ir).sp = s.sp := rfl

@[simp] theorem State.memRead_writeReg (s : State) (i : RegIdx) (v : Byte) (n : Nat) : (s.writeReg i v).memRead n = s.memRead n := rfl
@[simp] theorem State.memRead_writePc (s : State) (v : Byte) (n : Nat) : (s.writePc v).memRead n = s.memRead n := rfl
@[simp] theorem State.memRead_writeFl (s : State) (v : Byte) (n : Nat) : (s.writeFl v).memRead n = s.memRead n := rfl
@[simp] theorem State.memRead_emit (s : State) (v : Byte) (n : Nat) : (s.emit v).memRead n = s.memRead n := rfl
@[simp] theorem State.memRead_halt (s : State) (n : Nat) : (s.halt).memRead n = s.memRead n := rfl
@[simp] theorem State.memRead_raise (s : State) (c : Cause) (ir : Byte) (n : Nat) : (s.raise c ir).memRead n = s.memRead n := rfl

@[simp] theorem State.load_writeReg (s : State) (i : RegIdx) (v : Byte) (n : Byte) : (s.writeReg i v).load n = s.load n := rfl
@[simp] theorem State.load_writePc (s : State) (v : Byte) (n : Byte) : (s.writePc v).load n = s.load n := rfl
@[simp] theorem State.load_writeFl (s : State) (v : Byte) (n : Byte) : (s.writeFl v).load n = s.load n := rfl
@[simp] theorem State.load_emit (s : State) (v : Byte) (n : Byte) : (s.emit v).load n = s.load n := rfl
@[simp] theorem State.load_halt (s : State) (n : Byte) : (s.halt).load n = s.load n := rfl
@[simp] theorem State.load_raise (s : State) (c : Cause) (ir : Byte) (n : Byte) : (s.raise c ir).load n = s.load n := rfl

@[simp] theorem State.equalBit_writeReg (s : State) (i : RegIdx) (v : Byte) : (s.writeReg i v).equalBit = s.equalBit := rfl
@[simp] theorem State.equalBit_writePc (s : State) (v : Byte) : (s.writePc v).equalBit = s.equalBit := rfl
@[simp] theorem State.equalBit_memWrite (s : State) (a v : Byte) : (s.memWrite a v).equalBit = s.equalBit := rfl
@[simp] theorem State.equalBit_emit (s : State) (v : Byte) : (s.emit v).equalBit = s.equalBit := rfl
@[simp] theorem State.equalBit_halt (s : State) : (s.halt).equalBit = s.equalBit := rfl
@[simp] theorem State.equalBit_raise (s : State) (c : Cause) (ir : Byte) : (s.raise c ir).equalBit = s.equalBit := rfl

/-! ### Reading the register file back -/

@[simp] theorem State.readReg_writeReg_self (s : State) (i : RegIdx) (v : Byte) : (s.writeReg i v).readReg i = v := by
  simp [State.readReg, State.writeReg]

theorem State.readReg_writeReg_of_ne (s : State) {i r : RegIdx} (h : r ≠ i) (v : Byte) :
    (s.writeReg i v).readReg r = s.readReg r := by
  have : i.val ≠ r.val := fun e => h (Fin.ext e.symm)
  simp [State.readReg, State.writeReg, this]

@[simp] theorem State.sp_writeReg_sp (s : State) (v : Byte) : (s.writeReg Config.spIndex v).sp = v :=
  s.readReg_writeReg_self _ v

/-! ### The stack pointer's arithmetic is 8-bit arithmetic -/

theorem State.decSp_eq (s : State) : s.decSp = s.writeReg 7 (s.x[7] - 1) := by
  have h : BitVec.ofNat 8 ((s.sp.toNat + 255) % 256) = s.x[7] - 1 := by
    apply BitVec.eq_of_toNat_eq
    simp [State.sp, State.readReg, BitVec.toNat_sub]
    omega
  rw [State.decSp, h]

theorem State.incSp_eq (s : State) : s.incSp = s.writeReg 7 (s.x[7] + 1) := by
  have h : BitVec.ofNat 8 ((s.sp.toNat + 1) % 256) = s.x[7] + 1 := by
    apply BitVec.eq_of_toNat_eq
    simp [State.sp, State.readReg]
  rw [State.incSp, h]

@[simp] theorem State.decSp_sp (s : State) : s.decSp.sp = s.x[7] - 1 := by
  rw [State.decSp_eq]
  exact s.sp_writeReg_sp _

end Sys2Proof.Machine
end

