-- ==== Sys2Proof/Laws/Ops.lean ====
section
/-!
SUPPORT. What the shared operations can do, said once: the operand check, the sequential address, the PC update, the engine
around a handler, the stack operations, and each handler as one equation.
-/

namespace Sys2Proof.Machine

/-! ## Operands and sequential addresses -/

theorem regIndex_of_lt {a : Byte} (h : a.toNat < 8) : regIndex a = .ok ⟨a.toNat, h⟩ := dif_pos h

theorem regIndex_of_le {a : Byte} (h : 8 ≤ a.toNat) : regIndex a = .error .registerIndex := dif_neg (by omega)

/-- A register operand either names a register or is above 7. -/
theorem regIndex_cases (a : Byte) :
    (∃ h : a.toNat < 8, regIndex a = .ok ⟨a.toNat, h⟩) ∨ 8 ≤ a.toNat ∧ regIndex a = .error .registerIndex := by
  rcases Nat.lt_or_ge a.toNat 8 with h | h
  · exact .inl ⟨h, regIndex_of_lt h⟩
  · exact .inr ⟨h, regIndex_of_le h⟩

theorem nextAddress_of_le {n : Nat} (h : n ≤ 255) : nextAddress n = .ok (BitVec.ofNat 8 n) := if_pos h

theorem nextAddress_of_lt {n : Nat} (h : 255 < n) : nextAddress n = .error .pcOverflow := if_neg (by omega)

/-- The sequential address in 8-bit arithmetic: `pc + k` is the byte whose value is the exact sum, where that fits. -/
theorem ofNat_pc_add (p : Byte) (k : Nat) : BitVec.ofNat 8 (p.toNat + k) = p + BitVec.ofNat 8 k := by
  apply BitVec.eq_of_toNat_eq
  simp

/-! ## The PC update (`40_execution_engine.md` R79, R80) -/

theorem State.autoAdvance_of_setsPc (s : State) {ir : Byte} (h : setsPc ir = true) : s.autoAdvance ir = s := by
  simp [State.autoAdvance, h]

theorem State.autoAdvance_of_le (s : State) {ir : Byte} (h : setsPc ir = false)
    (hp : s.pc.toNat + 1 + operandCount ir ≤ 255) :
    s.autoAdvance ir = s.writePc (BitVec.ofNat 8 (s.pc.toNat + 1 + operandCount ir)) := by
  simp [State.autoAdvance, h, hp]

theorem State.autoAdvance_of_lt (s : State) {ir : Byte} (h : setsPc ir = false) (hr : s.run ≠ .halted)
    (hp : 255 < s.pc.toNat + 1 + operandCount ir) : s.autoAdvance ir = s.raise .pcOverflow ir := by
  simp [State.autoAdvance, h, hr, Nat.not_le.2 hp]

theorem State.autoAdvance_of_halted (s : State) {ir : Byte} (h : setsPc ir = false) (hr : s.run = .halted) :
    s.autoAdvance ir = s.writePc (BitVec.ofNat 8 (s.pc.toNat + 1 + operandCount ir)) := by
  have e : BitVec.ofNat 8 ((s.pc.toNat + 1 + operandCount ir) % 256) = BitVec.ofNat 8 (s.pc.toNat + 1 + operandCount ir) := by
    apply BitVec.eq_of_toNat_eq
    simp
  simp only [State.autoAdvance, h, hr, e, if_true, ite_self, Bool.false_eq_true, if_false]

/-- The PC update leaves the state, writes PC, or raises PcOverflow. -/
theorem State.autoAdvance_cases (s : State) (ir : Byte) :
    (setsPc ir = true ∧ s.autoAdvance ir = s) ∨
    (setsPc ir = false ∧ (s.pc.toNat + 1 + operandCount ir ≤ 255 ∨ s.run = .halted) ∧
      s.autoAdvance ir = s.writePc (BitVec.ofNat 8 (s.pc.toNat + 1 + operandCount ir))) ∨
    (setsPc ir = false ∧ 255 < s.pc.toNat + 1 + operandCount ir ∧ s.run ≠ .halted ∧
      s.autoAdvance ir = s.raise .pcOverflow ir) := by
  cases h : setsPc ir
  · by_cases hr : s.run = .halted
    · exact .inr (.inl ⟨rfl, .inr hr, s.autoAdvance_of_halted h hr⟩)
    · rcases Nat.lt_or_ge 255 (s.pc.toNat + 1 + operandCount ir) with hp | hp
      · exact .inr (.inr ⟨rfl, hp, hr, s.autoAdvance_of_lt h hr hp⟩)
      · exact .inr (.inl ⟨rfl, .inl hp, s.autoAdvance_of_le h hp⟩)
  · exact .inl ⟨rfl, s.autoAdvance_of_setsPc h⟩

@[simp] theorem State.autoAdvance_x (s : State) (ir : Byte) : (s.autoAdvance ir).x = s.x := by
  rcases s.autoAdvance_cases ir with ⟨-, h⟩ | ⟨-, -, h⟩ | ⟨-, -, -, h⟩ <;> simp [h]

@[simp] theorem State.autoAdvance_fl (s : State) (ir : Byte) : (s.autoAdvance ir).fl = s.fl := by
  rcases s.autoAdvance_cases ir with ⟨-, h⟩ | ⟨-, -, h⟩ | ⟨-, -, -, h⟩ <;> simp [h]

@[simp] theorem State.autoAdvance_mem (s : State) (ir : Byte) : (s.autoAdvance ir).mem = s.mem := by
  rcases s.autoAdvance_cases ir with ⟨-, h⟩ | ⟨-, -, h⟩ | ⟨-, -, -, h⟩ <;> simp [h]

@[simp] theorem State.autoAdvance_out (s : State) (ir : Byte) : (s.autoAdvance ir).out = s.out := by
  rcases s.autoAdvance_cases ir with ⟨-, h⟩ | ⟨-, -, h⟩ | ⟨-, -, -, h⟩ <;> simp [h]

/-- The PC update keeps the run state and the fault record, or raises PcOverflow where it would have had to write PC. -/
theorem State.autoAdvance_run_flt_cases (s : State) (ir : Byte) :
    ((s.autoAdvance ir).run = s.run ∧ (s.autoAdvance ir).flt = s.flt) ∨
    (setsPc ir = false ∧ (s.autoAdvance ir).run = .faulted ∧
      (s.autoAdvance ir).flt = some ⟨.pcOverflow, s.pc, ir⟩ ∧ (s.autoAdvance ir).pc = s.pc) := by
  rcases s.autoAdvance_cases ir with ⟨-, h⟩ | ⟨-, -, h⟩ | ⟨h', -, -, h⟩ <;> simp [*]

/-! ## The ALU (`42_alu.md` R101 to R104), in 8-bit arithmetic -/

theorem aluAdd_eq (u v : Byte) : aluAdd u v = u + v := by
  apply BitVec.eq_of_toNat_eq
  simp [aluAdd]

theorem aluMul_eq (u v : Byte) : aluMul u v = u * v := by
  apply BitVec.eq_of_toNat_eq
  simp [aluMul]

/-- Exactly one of the three flags, by the order of the two values. -/
theorem compareFlags_cases (u v : Byte) :
    (u = v ∧ compareFlags u v = flagE) ∨ (v.toNat < u.toNat ∧ compareFlags u v = flagG) ∨
    (u.toNat < v.toNat ∧ compareFlags u v = flagL) := by
  rcases Nat.lt_trichotomy u.toNat v.toNat with h | h | h
  · exact .inr (.inr ⟨h, by simp [compareFlags, Nat.ne_of_lt h, Nat.lt_asymm h]⟩)
  · exact .inl ⟨BitVec.eq_of_toNat_eq h, by simp [compareFlags, h]⟩
  · exact .inr (.inl ⟨h, by simp [compareFlags, Nat.ne_of_gt h, h]⟩)

/-! ## The engine around a handler -/

theorem engine_of_error {m : Mnemonic} {h : State → Except Cause State} {s : State} {c : Cause} (e : h s = .error c) :
    engine m h s = .next (s.raise c m.opcode) := by
  simp [engine, e]

theorem engine_of_ok {m : Mnemonic} {h : State → Except Cause State} {s t : State} (e : h s = .ok t) :
    engine m h s = .next (t.autoAdvance m.opcode) := by
  simp [engine, e]

/-- All the engine can answer: the handler's fault on the untouched state, or the handler's state with the PC update. -/
theorem engine_cases {m : Mnemonic} {h : State → Except Cause State} {s t : State} (e : engine m h s = .next t) :
    (∃ c, h s = .error c ∧ t = s.raise c m.opcode) ∨ ∃ u, h s = .ok u ∧ t = u.autoAdvance m.opcode := by
  unfold engine at e
  split at e <;> rename_i r hr
  · exact .inl ⟨r, hr, by injection e with e; exact e.symm⟩
  · exact .inr ⟨r, hr, by injection e with e; exact e.symm⟩

/-! ## The stack operations -/

theorem State.storeTop_decSp (s : State) (v : Byte) :
    s.decSp.storeTop v = { s with x := s.x.set 7 (s.x[7] - 1), mem := s.mem.write (s.x[7] - 1) v } := by
  rw [State.storeTop, State.decSp_sp, State.decSp_eq]
  rfl

theorem State.pushByte_eq (s : State) (v : Byte) :
    s.pushByte v = { s with x := s.x.set 7 (s.x[7] - 1), mem := s.mem.write (s.x[7] - 1) v } :=
  s.storeTop_decSp v

/-- The read of a pop is the memory read at SP, which is never `NONE`. -/
theorem State.memRead_sp (s : State) : s.memRead s.x[7].toNat = some s.loadTop :=
  Memory.read_of_lt _ s.x[7].isLt

theorem State.memRead_toNat (s : State) (a : Byte) : s.memRead a.toNat = some (s.load a) :=
  Memory.read_of_lt _ a.isLt

/-! ## Each handler as one equation -/

theorem ldiHandler_of_lt {a : Byte} (h : a.toNat < 8) (imm : Byte) (s : State) :
    ldiHandler a imm s = .ok { s with x := s.x.set a.toNat imm } := by
  simp only [ldiHandler, regIndex_of_lt h]; rfl

theorem prnHandler_of_lt {a : Byte} (h : a.toNat < 8) (s : State) :
    prnHandler a s = .ok { s with out := s.out ++ [s.x[a.toNat]] } := by
  simp only [prnHandler, regIndex_of_lt h]; rfl

theorem aluHandler_of_lt (op : AluOp) {a b : Byte} (ha : a.toNat < 8) (hb : b.toNat < 8) (s : State) :
    aluHandler op a b s = .ok (aluExecute op ⟨a.toNat, ha⟩ ⟨b.toNat, hb⟩ s) := by
  simp only [aluHandler, regIndex_of_lt ha, regIndex_of_lt hb]; rfl

theorem pushHandler_of_lt {a : Byte} (h : a.toNat < 8) (s : State) :
    pushHandler a s = .ok { s with
      x := s.x.set 7 (s.x[7] - 1)
      mem := s.mem.write (s.x[7] - 1) ((s.x.set 7 (s.x[7] - 1))[a.toNat]) } := by
  simp only [pushHandler, regIndex_of_lt h]
  rw [← State.storeTop_decSp, State.decSp_eq]; rfl

theorem popHandler_of_lt {a : Byte} (h : a.toNat < 8) (s : State) :
    popHandler a s = .ok { s with
      x := (s.x.set a.toNat s.loadTop).set 7 ((s.x.set a.toNat s.loadTop)[7] + 1) } := by
  simp only [popHandler, regIndex_of_lt h]
  show Except.ok ((s.writeReg ⟨a.toNat, h⟩ s.loadTop).incSp) = _
  rw [State.incSp_eq]; rfl

theorem callHandler_of_lt {a : Byte} (h : a.toNat < 8) (s : State) (hp : s.pc.toNat + 2 ≤ 255) :
    callHandler a s = .ok { s with
      x := s.x.set 7 (s.x[7] - 1)
      mem := s.mem.write (s.x[7] - 1) (s.pc + 2)
      pc := (s.x.set 7 (s.x[7] - 1))[a.toNat] } := by
  simp only [callHandler, regIndex_of_lt h, nextAddress_of_le hp, ofNat_pc_add]
  show Except.ok ((s.pushByte _).writePc ((s.pushByte _).readReg _)) = _
  rw [State.pushByte_eq]; rfl

theorem callHandler_of_gt {a : Byte} (h : a.toNat < 8) (s : State) (hp : 255 < s.pc.toNat + 2) :
    callHandler a s = .error .pcOverflow := by
  simp only [callHandler, regIndex_of_lt h, nextAddress_of_lt hp]; rfl

theorem retHandler_eq (s : State) :
    retHandler s = .ok { s with pc := s.loadTop, x := s.x.set 7 (s.x[7] + 1) } := by
  rw [retHandler, State.incSp_eq]; rfl

theorem jmpHandler_of_lt {a : Byte} (h : a.toNat < 8) (s : State) :
    jmpHandler a s = .ok { s with pc := s.x[a.toNat] } := by
  simp only [jmpHandler, regIndex_of_lt h]; rfl

theorem condJump_true {a : Byte} (h : a.toNat < 8) (s : State) :
    condJump true a s = .ok { s with pc := s.x[a.toNat] } := by
  simp only [condJump, regIndex_of_lt h]; rfl

theorem condJump_false {a : Byte} (h : a.toNat < 8) (s : State) (hp : s.pc.toNat + 2 ≤ 255) :
    condJump false a s = .ok { s with pc := s.pc + 2 } := by
  simp only [condJump, regIndex_of_lt h, nextAddress_of_le hp, ofNat_pc_add]; rfl

theorem condJump_false_of_gt {a : Byte} (h : a.toNat < 8) (s : State) (hp : 255 < s.pc.toNat + 2) :
    condJump false a s = .error .pcOverflow := by
  simp only [condJump, regIndex_of_lt h, nextAddress_of_lt hp]; rfl

end Sys2Proof.Machine
end

