-- ==== Sys2Proof/Laws/Exec.lean ====
section
/-!
SUPPORT. `exec` as the engine around one handler per instruction, and what a step can do.
-/

namespace Sys2Proof.Machine

/-- The handler of each instruction, as `exec`'s arms name it. -/
def handler : Instr → State → Except Cause State
  | .hlt => haltHandler
  | .ldi a imm => ldiHandler a imm
  | .prn a => prnHandler a
  | .add a b => aluHandler .add a b
  | .mul a b => aluHandler .mul a b
  | .cmp a b => aluHandler .cmp a b
  | .push a => pushHandler a
  | .pop a => popHandler a
  | .call a => callHandler a
  | .ret => retHandler
  | .jmp a => jmpHandler a
  | .jeq a => fun s => condJump s.equalBit a s
  | .jne a => fun s => condJump (!s.equalBit) a s

theorem exec_eq_engine (i : Instr) (s : State) : exec i s = engine i.mnemonic (handler i) s := by
  cases i <;> rfl

theorem exec_of_error {i : Instr} {s : State} {c : Cause} (h : handler i s = .error c) :
    exec i s = .next (s.raise c i.opcode) := by
  rw [exec_eq_engine, engine_of_error h, Instr.opcode]

theorem exec_of_ok {i : Instr} {s u : State} (h : handler i s = .ok u) : exec i s = .next (u.autoAdvance i.opcode) := by
  rw [exec_eq_engine, engine_of_ok h, Instr.opcode]

/-- A handler that sets PC itself: its effects are the whole step (`40_execution_engine.md` R80). -/
theorem exec_of_ok_of_setsPc {i : Instr} {s u : State} (h : handler i s = .ok u) (hc : setsPc i.mnemonic.opcode = true) :
    exec i s = .next u := by
  rw [exec_of_ok h, Instr.opcode, u.autoAdvance_of_setsPc hc]

/-- The auto-advance fits: PC moves past the instruction's `1 + n` bytes (`40_execution_engine.md` R79). -/
theorem exec_of_ok_of_le {i : Instr} {s u : State} (n : Nat) (h : handler i s = .ok u)
    (hc : setsPc i.mnemonic.opcode = false) (hn : operandCount i.mnemonic.opcode = n) (hp : u.pc.toNat + 1 + n ≤ 255) :
    exec i s = .next { u with pc := u.pc + BitVec.ofNat 8 (1 + n) } := by
  subst hn
  rw [exec_of_ok h, Instr.opcode, u.autoAdvance_of_le hc hp, Nat.add_assoc, ofNat_pc_add]
  rfl

/-- The auto-advance does not fit: PcOverflow, with the handler's effects kept (`40_execution_engine.md` R79). -/
theorem exec_of_ok_of_lt {i : Instr} {s u : State} (n : Nat) (h : handler i s = .ok u)
    (hc : setsPc i.mnemonic.opcode = false) (hn : operandCount i.mnemonic.opcode = n) (hr : u.run ≠ .halted)
    (hp : 255 < u.pc.toNat + 1 + n) : exec i s = .next (u.raise .pcOverflow i.opcode) := by
  subst hn
  rw [exec_of_ok h, Instr.opcode, u.autoAdvance_of_lt hc hr hp]

/-- All an instruction can do: raise a fault on the untouched state, or its handler's effects and the PC update. -/
theorem exec_cases {i : Instr} {s t : State} (h : exec i s = .next t) :
    (∃ c, handler i s = .error c ∧ t = s.raise c i.opcode) ∨
    ∃ u, handler i s = .ok u ∧ t = u.autoAdvance i.opcode :=
  engine_cases (exec_eq_engine i s ▸ h)

/-- A handler answers RegisterIndexFault for an ill-formed instruction; a handler's other fault is PcOverflow. -/
theorem handler_error_cases {i : Instr} {s : State} {c : Cause} (h : handler i s = .error c) :
    (c = .registerIndex ∧ i.wellFormed = false) ∨
    (c = .pcOverflow ∧ i.wellFormed = true ∧ setsPc i.opcode = true ∧ 255 < s.pc.toNat + 2) := by
  cases i with
  | hlt => cases h
  | ret => cases h
  | ldi a imm =>
    rcases regIndex_cases a with ⟨ha, e⟩ | ⟨ha, e⟩ <;> simp only [handler, ldiHandler, e] at h <;> cases h
    exact .inl ⟨rfl, by simp [Instr.wellFormed, Instr.regOperands, ha]⟩
  | prn a =>
    rcases regIndex_cases a with ⟨ha, e⟩ | ⟨ha, e⟩ <;> simp only [handler, prnHandler, e] at h <;> cases h
    exact .inl ⟨rfl, by simp [Instr.wellFormed, Instr.regOperands, ha]⟩
  | add a b | mul a b | cmp a b =>
    rcases regIndex_cases a with ⟨ha, e⟩ | ⟨ha, e⟩ <;> rcases regIndex_cases b with ⟨hb, f⟩ | ⟨hb, f⟩ <;>
      simp only [handler, aluHandler, e, f] at h <;> cases h <;>
      exact .inl ⟨rfl, by simp [Instr.wellFormed, Instr.regOperands, ha, hb]⟩
  | push a =>
    rcases regIndex_cases a with ⟨ha, e⟩ | ⟨ha, e⟩ <;> simp only [handler, pushHandler, e] at h <;> cases h
    exact .inl ⟨rfl, by simp [Instr.wellFormed, Instr.regOperands, ha]⟩
  | pop a =>
    rcases regIndex_cases a with ⟨ha, e⟩ | ⟨ha, e⟩ <;> simp only [handler, popHandler, e] at h <;> cases h
    exact .inl ⟨rfl, by simp [Instr.wellFormed, Instr.regOperands, ha]⟩
  | jmp a =>
    rcases regIndex_cases a with ⟨ha, e⟩ | ⟨ha, e⟩ <;> simp only [handler, jmpHandler, e] at h <;> cases h
    exact .inl ⟨rfl, by simp [Instr.wellFormed, Instr.regOperands, ha]⟩
  | call a =>
    rcases regIndex_cases a with ⟨ha, e⟩ | ⟨ha, e⟩
    · rcases Nat.lt_or_ge 255 (s.pc.toNat + 2) with hp | hp
      · rw [handler, callHandler_of_gt ha s hp] at h
        cases h
        exact .inr ⟨rfl, by simp [Instr.wellFormed, Instr.regOperands, ha], setsPc_opcode _, hp⟩
      · rw [handler, callHandler_of_lt ha s hp] at h
        cases h
    · simp only [handler, callHandler, e] at h
      cases h
      exact .inl ⟨rfl, by simp [Instr.wellFormed, Instr.regOperands, ha]⟩
  | jeq a =>
    rcases regIndex_cases a with ⟨ha, e⟩ | ⟨ha, e⟩
    · rcases Nat.lt_or_ge 255 (s.pc.toNat + 2) with hp | hp <;> cases hb : s.equalBit <;>
        simp only [handler, hb, condJump_true ha, condJump_false ha s, condJump_false_of_gt ha s, hp] at h <;> cases h
      exact .inr ⟨rfl, by simp [Instr.wellFormed, Instr.regOperands, ha], setsPc_opcode _, hp⟩
    · simp only [handler, condJump, e] at h
      cases h
      exact .inl ⟨rfl, by simp [Instr.wellFormed, Instr.regOperands, ha]⟩
  | jne a =>
    rcases regIndex_cases a with ⟨ha, e⟩ | ⟨ha, e⟩
    · rcases Nat.lt_or_ge 255 (s.pc.toNat + 2) with hp | hp <;> cases hb : s.equalBit <;>
        simp only [handler, hb, Bool.not_true, Bool.not_false, condJump_true ha, condJump_false ha s,
          condJump_false_of_gt ha s, hp] at h <;> cases h
      exact .inr ⟨rfl, by simp [Instr.wellFormed, Instr.regOperands, ha], setsPc_opcode _, hp⟩
    · simp only [handler, condJump, e] at h
      cases h
      exact .inl ⟨rfl, by simp [Instr.wellFormed, Instr.regOperands, ha]⟩

/-- All that a handler which raises nothing can have done: its instruction names registers that exist, the fault record is
untouched, and its effects are those of the instruction's rule. -/
theorem handler_ok_cases {i : Instr} {s u : State} (h : handler i s = .ok u) :
    i.wellFormed = true ∧ u.flt = s.flt ∧
    ((i = .hlt ∧ u = s.halt) ∨
     (∃ a imm, ∃ ha : a.toNat < 8, i = .ldi a imm ∧ u = { s with x := s.x.set a.toNat imm }) ∨
     (∃ a, ∃ ha : a.toNat < 8, i = .prn a ∧ u = { s with out := s.out ++ [s.x[a.toNat]] }) ∨
     (∃ a b, ∃ (ha : a.toNat < 8) (hb : b.toNat < 8), i = .add a b ∧
        u = { s with x := s.x.set a.toNat (aluAdd s.x[a.toNat] s.x[b.toNat]) }) ∨
     (∃ a b, ∃ (ha : a.toNat < 8) (hb : b.toNat < 8), i = .mul a b ∧
        u = { s with x := s.x.set a.toNat (aluMul s.x[a.toNat] s.x[b.toNat]) }) ∨
     (∃ a b, ∃ (ha : a.toNat < 8) (hb : b.toNat < 8), i = .cmp a b ∧
        u = { s with fl := compareFlags s.x[a.toNat] s.x[b.toNat] }) ∨
     (∃ a, ∃ ha : a.toNat < 8, i = .push a ∧
        u = { s with x := s.x.set 7 (s.x[7] - 1)
                     mem := s.mem.write (s.x[7] - 1) ((s.x.set 7 (s.x[7] - 1))[a.toNat]) }) ∨
     (∃ a, ∃ ha : a.toNat < 8, i = .pop a ∧
        u = { s with x := (s.x.set a.toNat s.loadTop).set 7 ((s.x.set a.toNat s.loadTop)[7] + 1) }) ∨
     (∃ a, ∃ ha : a.toNat < 8, i = .call a ∧ s.pc.toNat ≤ 253 ∧
        u = { s with x := s.x.set 7 (s.x[7] - 1)
                     mem := s.mem.write (s.x[7] - 1) (s.pc + 2)
                     pc := (s.x.set 7 (s.x[7] - 1))[a.toNat] }) ∨
     (i = .ret ∧ u = { s with pc := s.loadTop, x := s.x.set 7 (s.x[7] + 1) }) ∨
     (∃ a, ∃ ha : a.toNat < 8, i = .jmp a ∧ u = { s with pc := s.x[a.toNat] }) ∨
     (∃ a, ∃ ha : a.toNat < 8, i = .jeq a ∧ (s.equalBit = false → s.pc.toNat ≤ 253) ∧
        u = { s with pc := if s.equalBit then s.x[a.toNat] else s.pc + 2 }) ∨
     (∃ a, ∃ ha : a.toNat < 8, i = .jne a ∧ (s.equalBit = true → s.pc.toNat ≤ 253) ∧
        u = { s with pc := if s.equalBit then s.pc + 2 else s.x[a.toNat] })) := by
  cases i with
  | hlt => cases h; exact ⟨rfl, rfl, .inl ⟨rfl, rfl⟩⟩
  | ret =>
    simp only [handler] at h; rw [retHandler_eq] at h; cases h
    simp [Instr.wellFormed, Instr.regOperands]
  | ldi a b =>
    rcases regIndex_cases a with ⟨ha, e⟩ | ⟨ha, e⟩
    · simp only [handler] at h; rw [ldiHandler_of_lt ha] at h; cases h
      simp [Instr.wellFormed, Instr.regOperands, ha]
    · simp only [handler, ldiHandler, e] at h; cases h
  | prn a =>
    rcases regIndex_cases a with ⟨ha, e⟩ | ⟨ha, e⟩
    · simp only [handler] at h; rw [prnHandler_of_lt ha] at h; cases h
      simp [Instr.wellFormed, Instr.regOperands, ha]
    · simp only [handler, prnHandler, e] at h; cases h
  | add a b =>
    rcases regIndex_cases a with ⟨ha, e⟩ | ⟨ha, e⟩ <;> rcases regIndex_cases b with ⟨hb, f⟩ | ⟨hb, f⟩
    · simp only [handler] at h; rw [aluHandler_of_lt _ ha hb] at h; cases h
      simp [Instr.wellFormed, Instr.regOperands, ha, hb, aluExecute, State.writeReg, State.readReg]
    all_goals simp only [handler, aluHandler, e, f] at h; cases h
  | mul a b =>
    rcases regIndex_cases a with ⟨ha, e⟩ | ⟨ha, e⟩ <;> rcases regIndex_cases b with ⟨hb, f⟩ | ⟨hb, f⟩
    · simp only [handler] at h; rw [aluHandler_of_lt _ ha hb] at h; cases h
      simp [Instr.wellFormed, Instr.regOperands, ha, hb, aluExecute, State.writeReg, State.readReg]
    all_goals simp only [handler, aluHandler, e, f] at h; cases h
  | cmp a b =>
    rcases regIndex_cases a with ⟨ha, e⟩ | ⟨ha, e⟩ <;> rcases regIndex_cases b with ⟨hb, f⟩ | ⟨hb, f⟩
    · simp only [handler] at h; rw [aluHandler_of_lt _ ha hb] at h; cases h
      simp [Instr.wellFormed, Instr.regOperands, ha, hb, aluExecute, State.writeFl, State.readReg]
    all_goals simp only [handler, aluHandler, e, f] at h; cases h
  | push a =>
    rcases regIndex_cases a with ⟨ha, e⟩ | ⟨ha, e⟩
    · simp only [handler] at h; rw [pushHandler_of_lt ha] at h; cases h
      simp [Instr.wellFormed, Instr.regOperands, ha]
    · simp only [handler, pushHandler, e] at h; cases h
  | pop a =>
    rcases regIndex_cases a with ⟨ha, e⟩ | ⟨ha, e⟩
    · simp only [handler] at h; rw [popHandler_of_lt ha] at h; cases h
      simp [Instr.wellFormed, Instr.regOperands, ha]
    · simp only [handler, popHandler, e] at h; cases h
  | call a =>
    rcases regIndex_cases a with ⟨ha, e⟩ | ⟨ha, e⟩
    · rcases Nat.lt_or_ge 255 (s.pc.toNat + 2) with hp | hp
      · simp only [handler] at h; rw [callHandler_of_gt ha _ hp] at h; cases h
      · simp only [handler] at h; rw [callHandler_of_lt ha _ hp] at h; cases h
        simp [Instr.wellFormed, Instr.regOperands, ha]; omega
    · simp only [handler, callHandler, e] at h; cases h
  | jmp a =>
    rcases regIndex_cases a with ⟨ha, e⟩ | ⟨ha, e⟩
    · simp only [handler] at h; rw [jmpHandler_of_lt ha] at h; cases h
      simp [Instr.wellFormed, Instr.regOperands, ha]
    · simp only [handler, jmpHandler, e] at h; cases h
  | jeq a =>
    rcases regIndex_cases a with ⟨ha, e⟩ | ⟨ha, e⟩
    · rcases Nat.lt_or_ge 255 (s.pc.toNat + 2) with hp | hp <;> cases hb : s.equalBit <;>
        simp only [handler, hb, condJump_true ha, condJump_false ha s, condJump_false_of_gt ha s, hp] at h <;> cases h <;>
          (simp [Instr.wellFormed, Instr.regOperands, ha]; try omega)
    · simp only [handler, condJump, e] at h; cases h
  | jne a =>
    rcases regIndex_cases a with ⟨ha, e⟩ | ⟨ha, e⟩
    · rcases Nat.lt_or_ge 255 (s.pc.toNat + 2) with hp | hp <;> cases hb : s.equalBit <;>
        simp only [handler, hb, Bool.not_true, Bool.not_false, condJump_true ha, condJump_false ha s,
          condJump_false_of_gt ha s, hp] at h <;> cases h <;>
          (simp [Instr.wellFormed, Instr.regOperands, ha]; try omega)
    · simp only [handler, condJump, e] at h; cases h

/-! ## The step -/

theorem step_of_halted {s : State} (h : s.run = .halted) : step s = .fault .halted := by simp [step, h]

theorem step_of_faulted {s : State} (h : s.run = .faulted) : step s = .fault .faulted := by simp [step, h]

theorem step_of_instr {s : State} {i : Instr} (hr : s.run = .running) (h : s.fetchDecode = .instr i) :
    step s = exec i s := by
  simp [step, hr, h]

theorem step_of_illegal {s : State} {ir : Byte} (hr : s.run = .running) (h : s.fetchDecode = .illegal ir) :
    step s = .next (s.rejectFetch .illegalInstruction) := by
  simp [step, hr, h]

theorem step_of_operandMissing {s : State} {m : Mnemonic} (hr : s.run = .running)
    (h : s.fetchDecode = .operandMissing m) : step s = .next (s.rejectFetch .operandFetch) := by
  simp [step, hr, h]

theorem State.memRead_pc (s : State) : s.memRead s.pc.toNat = some s.fetchOpcode := s.memRead_toNat s.pc

/-- A step at the opcode byte of a mnemonic: the fault of a missing operand, or the instruction built from the operands. -/
theorem step_of_opcode {s : State} {m : Mnemonic} (hr : s.run = .running)
    (h : s.memRead s.pc.toNat = some m.opcode) :
    step s = match m.build s.fetchOpA s.fetchOpB with
      | none => .next (s.raise .operandFetch m.opcode)
      | some i => exec i s := by
  have hir : s.fetchOpcode = m.opcode := Option.some.inj (s.memRead_pc.symm.trans h)
  have hd : s.fetchDecode = _ := hir ▸ decode_of_opcode m s.fetchOpA s.fetchOpB
  cases hb : m.build s.fetchOpA s.fetchOpB with
  | none =>
    rw [hb] at hd
    rw [step_of_operandMissing hr hd, State.rejectFetch, hir]
  | some i =>
    rw [hb] at hd
    rw [step_of_instr hr hd]

/-- All a step that answers a next state can be: IllegalInstruction, OperandFetchFault, or the decoded instruction, whose opcode
is the byte fetched; and the machine was running. -/
theorem step_cases {s t : State} (h : step s = .next t) :
    s.run = .running ∧
    ((dispatch s.fetchOpcode = none ∧ t = s.raise .illegalInstruction s.fetchOpcode) ∨
     (∃ m : Mnemonic, m.opcode = s.fetchOpcode ∧ m.build s.fetchOpA s.fetchOpB = none ∧
        t = s.raise .operandFetch s.fetchOpcode) ∨
     ∃ i : Instr, i.opcode = s.fetchOpcode ∧ s.fetchDecode = .instr i ∧ exec i s = .next t) := by
  cases hr : s.run with
  | halted => rw [step_of_halted hr] at h; cases h
  | faulted => rw [step_of_faulted hr] at h; cases h
  | running =>
    refine ⟨rfl, ?_⟩
    cases hd : s.fetchDecode with
    | illegal ir =>
      rw [step_of_illegal hr hd] at h
      cases h
      exact .inl ⟨(decode_eq_illegal_iff.1 hd).1, rfl⟩
    | operandMissing m =>
      rw [step_of_operandMissing hr hd] at h
      cases h
      obtain ⟨hm, hb⟩ := decode_eq_operandMissing_iff.1 hd
      exact .inr (.inl ⟨m, hm, hb, rfl⟩)
    | badRegister m r => exact absurd hd (decode_ne_badRegister _ _ _ _ _)
    | instr i =>
      rw [step_of_instr hr hd] at h
      exact .inr (.inr ⟨i, (decode_eq_instr_iff.1 hd).1, rfl, h⟩)

end Sys2Proof.Machine
end

