-- ==== Sys2Proof/Laws/PerInstr.lean ====
section
/-!
SUPPORT. Facts stated of every instruction, one lemma per constructor.
-/

namespace Sys2Proof.Laws

/-- The encoding of one instruction hangs together: its opcode is the table's key of its mnemonic, the opcode's count bits count
its operand bytes, and its operand bytes build it back (`30_encoding.md` R51 to R53, R57). -/
def Encoding.Statement (i : Instr) : Prop :=
  dispatch i.opcode = some i.mnemonic ∧ i.operands.length = operandCount i.opcode ∧
  i.mnemonic.build i.operands[0]? i.operands[1]? = some i

theorem Encoding.hlt : Encoding.Statement .hlt := ⟨rfl, (operandCount_opcode .hlt).symm, rfl⟩
theorem Encoding.ldi (a imm : Byte) : Encoding.Statement (.ldi a imm) := ⟨rfl, (operandCount_opcode .ldi).symm, rfl⟩
theorem Encoding.prn (a : Byte) : Encoding.Statement (.prn a) := ⟨rfl, (operandCount_opcode .prn).symm, rfl⟩
theorem Encoding.add (a b : Byte) : Encoding.Statement (.add a b) := ⟨rfl, (operandCount_opcode .add).symm, rfl⟩
theorem Encoding.mul (a b : Byte) : Encoding.Statement (.mul a b) := ⟨rfl, (operandCount_opcode .mul).symm, rfl⟩
theorem Encoding.cmp (a b : Byte) : Encoding.Statement (.cmp a b) := ⟨rfl, (operandCount_opcode .cmp).symm, rfl⟩
theorem Encoding.push (a : Byte) : Encoding.Statement (.push a) := ⟨rfl, (operandCount_opcode .push).symm, rfl⟩
theorem Encoding.pop (a : Byte) : Encoding.Statement (.pop a) := ⟨rfl, (operandCount_opcode .pop).symm, rfl⟩
theorem Encoding.call (a : Byte) : Encoding.Statement (.call a) := ⟨rfl, (operandCount_opcode .call).symm, rfl⟩
theorem Encoding.ret : Encoding.Statement .ret := ⟨rfl, (operandCount_opcode .ret).symm, rfl⟩
theorem Encoding.jmp (a : Byte) : Encoding.Statement (.jmp a) := ⟨rfl, (operandCount_opcode .jmp).symm, rfl⟩
theorem Encoding.jeq (a : Byte) : Encoding.Statement (.jeq a) := ⟨rfl, (operandCount_opcode .jeq).symm, rfl⟩
theorem Encoding.jne (a : Byte) : Encoding.Statement (.jne a) := ⟨rfl, (operandCount_opcode .jne).symm, rfl⟩

end Sys2Proof.Laws
end

