-- ==== Sys2Proof/Laws/Run.lean ====
section
/-!
SUPPORT. Runs: a run is a chain of steps, so what one step keeps holds along a run.
-/

namespace Sys2Proof.Machine

/-- One step of the host's run, for any machine. -/
theorem run_succ (M : Host.Core) (k : Nat) (s t : M.State) :
    M.run (k + 1) s = .next t ↔ ∃ u, M.step s = .next u ∧ M.run k u = .next t := by
  rw [Host.Core.run]
  cases M.step s <;> simp

theorem reaches_zero {s t : State} : Reaches 0 s t ↔ s = t :=
  ⟨fun h => Host.Outcome.next.inj h, fun h => h ▸ rfl⟩

theorem reaches_succ {k : Nat} {s t : State} : Reaches (k + 1) s t ↔ ∃ u, step s = .next u ∧ Reaches k u t :=
  run_succ core k s t

/-- A run in two parts. -/
theorem reaches_add {j k : Nat} {s t : State} : Reaches (j + k) s t ↔ ∃ u, Reaches j s u ∧ Reaches k u t := by
  induction j generalizing s with
  | zero => simp [reaches_zero]
  | succ j ih =>
    rw [Nat.succ_add, reaches_succ]
    simp only [ih, reaches_succ]
    tauto

/-- The machine is a function: `k` steps lead to one state at most. -/
theorem reaches_unique {k : Nat} {s t u : State} (h : Reaches k s t) (h' : Reaches k s u) : t = u := by
  unfold Reaches at h h'
  rw [h] at h'
  injection h'

/-- What every step keeps, every run keeps. -/
theorem reaches_induction {P : State → Prop} (hstep : ∀ s t, P s → step s = .next t → P t) {k : Nat} {s t : State}
    (hs : P s) (h : Reaches k s t) : P t := by
  induction k generalizing s with
  | zero => exact reaches_zero.1 h ▸ hs
  | succ k ih =>
    obtain ⟨u, hu, h⟩ := reaches_succ.1 h
    exact ih (hstep s u hs hu) h

end Sys2Proof.Machine
end

