-- ==== Sys2Proof/Tests/Slice0.lean ====
section
/-!
SUPPORT. Tests of the model against the spec, and witnesses that the hypotheses of the statements can be met.

Expected results are those of `95_test_vectors.md` (V<n>), or bits written out from `30_encoding.md` R52 and R57; none is taken
from the model. A witness `wit_<Statement>_…` shows concrete states and operands that meet all hypotheses of a clause together.
-/

namespace Sys2Proof.Tests

open Sys2Proof Sys2Proof.Machine

/-! ## Helpers -/

/-- The reset state with PC moved and bytes laid from PC up. -/
def codeAt (pc : Byte) (bytes : List Byte) : State :=
  { State.reset with pc := pc, mem := Memory.place [] pc.toNat bytes }

/-- A state with one register changed. -/
def setReg (s : State) (i : RegIdx) (v : Byte) : State := s.writeReg i v

/-- The state an outcome gives, if any. -/
def nextOf : Host.Outcome State Fault Refusal → Option State
  | .next t => some t
  | _ => none

/-- The state after one step, if any. -/
def after (s : State) : Option State := nextOf (step s)

/-- Registers, PC, FL of the state after one step. -/
def cpuAfter (s : State) : Option (List Byte × Byte × Byte) := (after s).map fun t => (t.x.toList, t.pc, t.fl)

/-- Run state, cause code, faulting address and byte after one step. -/
def faultAfter (s : State) : Option (RunState × Option (Nat × Byte × Byte)) :=
  (after s).map fun t => (t.run, t.flt.map fun f => (f.cause.code, f.fpc, f.fir))

/-! ## Well-formedness: each check refuses a term -/

theorem test_wellFormed_refuses_operand_a :
    [Instr.ldi 8 0, .prn 8, .add 8 0, .mul 255 0, .cmp 8 7, .push 8, .pop 9, .call 128, .jmp 8, .jeq 8, .jne 8].all
      (fun i => !i.wellFormed) = true := by decide

theorem test_wellFormed_refuses_operand_b :
    [Instr.add 0 8, .mul 7 8, .cmp 0 255].all (fun i => !i.wellFormed) = true := by decide

theorem test_wellFormed_accepts :
    [Instr.hlt, .ldi 7 255, .prn 7, .add 7 7, .mul 0 7, .cmp 7 0, .push 7, .pop 7, .call 7, .ret, .jmp 7, .jeq 7, .jne 7].all
      Instr.wellFormed = true := by decide

/-! ## Decoding: one word of every instruction, bit by bit from the binary column of R57, operands as in V1 to V13 -/

theorem test_decode_hlt : decode 0b00000001 none none = .instr .hlt := by decide
theorem test_decode_ldi : decode 0b10000010 (some 0b00000011) (some 0b11111111) = .instr (.ldi 3 255) := by decide
theorem test_decode_prn : decode 0b01000111 (some 0b00000000) none = .instr (.prn 0) := by decide
theorem test_decode_add : decode 0b10100000 (some 0b00000000) (some 0b00000001) = .instr (.add 0 1) := by decide
theorem test_decode_mul : decode 0b10100010 (some 0b00000010) (some 0b00000010) = .instr (.mul 2 2) := by decide
theorem test_decode_cmp : decode 0b10100111 (some 0b00000110) (some 0b00000111) = .instr (.cmp 6 7) := by decide
theorem test_decode_push : decode 0b01000101 (some 0b00000111) none = .instr (.push 7) := by decide
theorem test_decode_pop : decode 0b01000110 (some 0b00000100) none = .instr (.pop 4) := by decide
theorem test_decode_call : decode 0b01010000 (some 0b00000001) none = .instr (.call 1) := by decide
theorem test_decode_ret : decode 0b00010001 none none = .instr .ret := by decide
theorem test_decode_jmp : decode 0b01010100 (some 0b00000101) none = .instr (.jmp 5) := by decide
theorem test_decode_jeq : decode 0b01010101 (some 0b00000010) none = .instr (.jeq 2) := by decide
theorem test_decode_jne : decode 0b01010110 (some 0b00000011) none = .instr (.jne 3) := by decide

/-- V14 to V18: illegal bytes. -/
theorem test_decode_illegal :
    [0x00, 0xA1, 0xC0, 0xFF, 0x81].all (fun ir => decide (decode ir (some 0) (some 0) = .illegal ir)) = true := by decide

/-- V19: the engine's decoder gives the instruction; the checked one names the bad index, operand a first. -/
theorem test_decode_bad_index :
    decode 0x47 (some 0x08) (some 0) = .instr (.prn 8) ∧ decodeChecked 0x47 (some 0x08) (some 0) = .badRegister .prn 8 ∧
    decodeChecked 0xA0 (some 0x09) (some 0x08) = .badRegister .add 9 := by decide

/-- The columns `N` and `C` of V1 to V13. -/
theorem test_opcode_fields :
    [0x01, 0x82, 0x47, 0xA0, 0xA2, 0xA7, 0x45, 0x46, 0x50, 0x11, 0x54, 0x55, 0x56].map
        (fun ir => (operandCount ir, setsPc ir)) =
      [(0, false), (2, false), (1, false), (2, false), (2, false), (2, false), (1, false), (1, false), (1, true), (0, true),
       (1, true), (1, true), (1, true)] := by decide

theorem test_encode_ldi : encode (.ldi 3 255) = [0x82, 0x03, 0xFF] := by decide
theorem test_encode_add : encode (.add 0 1) = [0xA0, 0x00, 0x01] := by decide

/-- The table's numbering: the first byte is bits 7:0. -/
theorem test_decodeTableWord :
    decodeTableWord 24 0xFF0382 = some (.ldi 3 255) ∧ decodeTableWord 8 0x01 = some .hlt ∧
    decodeTableWord 16 0x0156 = some (.jne 1) ∧ decodeTableWord 8 0x82 = some (.ldi 0 0) ∧
    decodeTableWord 8 0x00 = none := by decide

/-- A placed word runs as the first instruction after reset. -/
theorem test_withFetchWord : cpuAfter (State.reset.withFetchWord 24 0xFF0382) =
    some ([0, 0, 0, 255, 0, 0, 0, 244], 3, 0) := by decide

/-! ## One step of each instruction -/

/-- V32, V23. -/
theorem test_hlt : (after (codeAt 6 [0x01])).map (fun t => (t.run, t.pc)) = some (.halted, 7) ∧
    (after (codeAt 255 [0x01])).map (fun t => (t.run, t.pc)) = some (.halted, 0) := by decide

/-- V34. -/
theorem test_ldi : cpuAfter (setReg (codeAt 0 [0x82, 0x05, 0xFF]) 5 17) =
    some ([0, 0, 0, 0, 0, 255, 0, 244], 3, 0) := by decide

/-- V35: SP is an ordinary destination. -/
theorem test_ldi_sp : cpuAfter (codeAt 0 [0x82, 0x07, 0x80]) = some ([0, 0, 0, 0, 0, 0, 0, 128], 3, 0) := by decide

/-- V37. -/
theorem test_prn : (after (setReg (codeAt 0 [0x47, 0x03]) 3 255)).map (fun t => (t.out, t.pc)) = some ([255], 2) := by decide

/-- V41: 200 + 100; `x[b]` is kept. -/
theorem test_add_wraps : cpuAfter (setReg (setReg (codeAt 0 [0xA0, 0x00, 0x01]) 0 200) 1 100) =
    some ([44, 100, 0, 0, 0, 0, 0, 244], 3, 0) := by decide

/-- V44: source and destination are one register. -/
theorem test_add_same : cpuAfter (setReg (codeAt 0 [0xA0, 0x02, 0x02]) 2 130) =
    some ([0, 0, 4, 0, 0, 0, 0, 244], 3, 0) := by decide

/-- V48. -/
theorem test_mul_wraps : cpuAfter (setReg (setReg (codeAt 0 [0xA2, 0x00, 0x01]) 0 255) 1 255) =
    some ([1, 255, 0, 0, 0, 0, 0, 244], 3, 0) := by decide

/-- V50. -/
theorem test_mul_same : cpuAfter (setReg (codeAt 0 [0xA2, 0x04, 0x04]) 4 12) =
    some ([0, 0, 0, 0, 144, 0, 0, 244], 3, 0) := by decide

/-- V52, the old L bit is cleared; V56, the order is unsigned. -/
theorem test_cmp : cpuAfter (setReg (setReg ((codeAt 0 [0xA7, 0x00, 0x01]).writeFl 0x04) 0 5) 1 5) =
      some ([5, 5, 0, 0, 0, 0, 0, 244], 3, 0x01) ∧
    cpuAfter (setReg (setReg (codeAt 0 [0xA7, 0x00, 0x01]) 0 127) 1 128) =
      some ([127, 128, 0, 0, 0, 0, 0, 244], 3, 0x04) := by decide

/-- V55. -/
theorem test_cmp_greater : cpuAfter (setReg (setReg (codeAt 0 [0xA7, 0x00, 0x01]) 0 255) 1 1) =
    some ([255, 1, 0, 0, 0, 0, 0, 244], 3, 0x02) := by decide

/-- V69: the address wraps, and the pushed value lands in cell 255. -/
theorem test_push_wraps : (after (setReg (setReg (codeAt 0 [0x45, 0x00]) 0 9) 7 0)).map
    (fun t => (t.x[7], t.memRead 255, t.pc)) = some (255, some 9, 2) := by decide

/-- V67: PUSH R7 stores the decremented SP. -/
theorem test_push_sp : (after (codeAt 0 [0x45, 0x07])).map (fun t => (t.x[7], t.memRead 0xF3)) =
    some (243, some 243) := by decide

/-- V70: SP wraps. -/
theorem test_pop_wraps : cpuAfter ((setReg (codeAt 0 [0x46, 0x00]) 7 255).memWrite 255 0x33) =
    some ([51, 0, 0, 0, 0, 0, 0, 0], 2, 0) := by decide

/-- V68: POP R7 loads, then increments. -/
theorem test_pop_sp : cpuAfter ((codeAt 0 [0x46, 0x07]).memWrite 0xF4 0x10) =
    some ([0, 0, 0, 0, 0, 0, 0, 17], 2, 0) := by decide

/-- V73. -/
theorem test_call : (after (setReg (codeAt 6 [0x50, 0x01]) 1 20)).map (fun t => (t.x[7], t.memRead 0xF3, t.pc)) =
    some (243, some 8, 20) := by decide

/-- V75: CALL R7 jumps to the decremented SP. -/
theorem test_call_sp : (after (codeAt 0 [0x50, 0x07])).map (fun t => (t.x[7], t.memRead 0xF3, t.pc)) =
    some (243, some 2, 243) := by decide

/-- V74. -/
theorem test_ret : cpuAfter ((setReg (codeAt 23 [0x11]) 7 243).memWrite 0xF3 8) =
    some ([0, 0, 0, 0, 0, 0, 0, 244], 8, 0) := by decide

/-- V79; V25, at 254. -/
theorem test_jmp : (after (setReg (codeAt 14 [0x54, 0x03]) 3 9)).map State.pc = some 9 ∧
    (after (codeAt 254 [0x54, 0x00])).map State.pc = some 0 := by decide

/-- V81, V82. -/
theorem test_jeq : cpuAfter (setReg ((codeAt 12 [0x55, 0x02]).writeFl 0x01) 2 30) =
      some ([0, 0, 30, 0, 0, 0, 0, 244], 30, 0x01) ∧
    cpuAfter (setReg ((codeAt 12 [0x55, 0x02]).writeFl 0x04) 2 30) =
      some ([0, 0, 30, 0, 0, 0, 0, 244], 14, 0x04) := by decide

/-- V85, V86. -/
theorem test_jne : (after (setReg ((codeAt 15 [0x56, 0x03]).writeFl 0x01) 3 9)).map State.pc = some 17 ∧
    (after (setReg (codeAt 15 [0x56, 0x03]) 3 9)).map State.pc = some 9 := by decide

/-! ## Faults -/

/-- V60, V31: illegal, at 0 and at 255. -/
theorem test_fault_illegal : faultAfter (codeAt 0 []) = some (.faulted, some (1, 0, 0x00)) ∧
    faultAfter (codeAt 255 [0x00]) = some (.faulted, some (1, 255, 0x00)) := by decide

/-- V27, V29: a missing operand, before a bad index. -/
theorem test_fault_operand : faultAfter (codeAt 255 [0x47]) = some (.faulted, some (3, 255, 0x47)) ∧
    faultAfter (codeAt 254 [0x82, 0x09]) = some (.faulted, some (3, 254, 0x82)) := by decide

/-- V59, V77: a bad index, operand b too, before PcOverflow. -/
theorem test_fault_index : faultAfter (codeAt 0 [0xA0, 0x00, 0x08]) = some (.faulted, some (4, 0, 0xA0)) ∧
    faultAfter (codeAt 254 [0x50, 0x09]) = some (.faulted, some (4, 254, 0x50)) := by decide

/-- V89: the index is checked on the path not taken. -/
theorem test_fault_index_not_taken :
    faultAfter ((codeAt 12 [0x55, 0x08]).writeFl 0x04) = some (.faulted, some (4, 12, 0x55)) := by decide

/-- V76, V87: PcOverflow before any effect. -/
theorem test_fault_overflow : faultAfter (codeAt 254 [0x50, 0x00]) = some (.faulted, some (5, 254, 0x50)) ∧
    (after (codeAt 254 [0x50, 0x00])).map (fun t => (t.x[7], t.mem)) = some (244, [(254, 0x50)]) ∧
    faultAfter (codeAt 254 [0x55, 0x00]) = some (.faulted, some (5, 254, 0x55)) := by decide

/-- V30: PcOverflow after the effects, which stay. -/
theorem test_fault_overflow_after : faultAfter (setReg (codeAt 254 [0x45, 0x00]) 0 5) =
      some (.faulted, some (5, 254, 0x45)) ∧
    (after (setReg (codeAt 254 [0x45, 0x00]) 0 5)).map (fun t => (t.x[7], t.memRead 0xF3, t.pc)) =
      some (243, some 5, 254) := by decide

/-- V91: the launch of a four-byte image. -/
theorem test_launch : (nextOf (State.launch [0x82, 0x00, 0x08, 0x01])).map (fun s => (s.mem, s.pc, s.x[7], s.run)) =
    some ([(0, 0x82), (2, 0x08), (3, 0x01)], 0, 244, .running) := by decide

/-- The trace view at reset: three zero bytes and the registers (`60_exceptions.md` R154). -/
theorem test_trace : (codeAt 254 [0x47, 0x03]).trace =
    ⟨254, [some 0x47, some 0x03, none], [0, 0, 0, 0, 0, 0, 0, 244]⟩ := by decide

/-! ## Witnesses -/

/-- A state that is not reset's and whose memory is canonical, with `bytes` at PC; SP points to address 0x80. -/
def busy (pc : Byte) (bytes : List Byte) : State :=
  { codeAt pc bytes with
    x := #v[1, 2, 3, 4, 5, 6, 7, 0x80], fl := 0x01, out := [9]
    mem := (Memory.place [] pc.toNat bytes).write 0x80 0x55 }

theorem wit_LaunchLoadsImageFromAddressZero :
    ([] : List Byte).length ≤ 256 ∧ (List.replicate 256 (0x01 : Byte)).length ≤ 256 :=
  ⟨Nat.zero_le _, Nat.le_of_eq List.length_replicate⟩

theorem wit_LaunchRefusesLongImageAndStartsSilent :
    256 < (List.replicate 257 (0x01 : Byte)).length ∧ ∃ s, State.launch [0x01] = .next s :=
  ⟨List.length_replicate ▸ Nat.lt_succ_self 256, _, rfl⟩

theorem wit_ResetIsRunningAndFaultRecordIsNeverRead : (busy 0 [0x47, 0x03]).run = .running ∧
    (after (busy 0 [0x47, 0x03])).map State.run = some .running ∧ (busy 0 [0xA1]).run = .running ∧
    (after (busy 0 [0xA1])).map State.run = some .faulted := by decide

theorem wit_DecodeAndEncodeAgree : decodeBytes [0x47, 0x03, 0x01] = some (.prn 3, [0x01]) := by decide

theorem wit_CheckedDecoder_illegal : ∀ m : Mnemonic, m.opcode ≠ 0xA1 := by intro m; cases m <;> decide

theorem wit_CheckedDecoder_missing :
    Mnemonic.opcode .prn = 0x47 ∧ 1 ≤ operandCount 0x47 ∧ Mnemonic.opcode .ldi = 0x82 ∧ operandCount 0x82 = 2 := by decide

theorem wit_CheckedDecoder_badA : Mnemonic.opcode .prn = 0x47 ∧ 1 ≤ operandCount 0x47 ∧ operandCount 0x47 ≠ 2 ∧
    7 < (8 : Byte).toNat ∧ Mnemonic.opcode .ldi = 0x82 ∧ operandCount 0x82 = 2 ∧ (some (0 : Byte) ≠ none) := by decide

theorem wit_CheckedDecoder_badB : Mnemonic.opcode .cmp = 0xA7 ∧ Mnemonic.cmp ∈ [Mnemonic.add, .mul, .cmp] ∧
    (7 : Byte).toNat ≤ 7 ∧ 7 < (8 : Byte).toNat := by decide

theorem wit_CheckedDecoder_instr : Mnemonic.opcode .ldi = 0x82 ∧ Mnemonic.ldi ∉ [Mnemonic.add, .mul, .cmp] ∧
    Mnemonic.opcode .add = 0xA0 ∧ Mnemonic.add ∈ [Mnemonic.add, .mul, .cmp] ∧ (7 : Byte).toNat ≤ 7 := by decide

theorem wit_StepRunsTheDecodedInstruction : (busy 253 [0xA0, 0x00, 0x07]).run = .running ∧
    (busy 253 [0xA0, 0x00, 0x07]).fetchDecode = .instr (.add 0 7) ∧
    ∀ (k : Nat) (hk : k < (encode (.add 0 7)).length),
      (busy 253 [0xA0, 0x00, 0x07]).memRead ((busy 253 [0xA0, 0x00, 0x07]).pc.toNat + k) = some (encode (.add 0 7))[k] := by
  decide

theorem wit_StepRunsThePlacedWord : (busy 253 []).mem.wf ∧ (busy 253 []).pc.toNat ≤ 253 ∧
    decodeTableWord 24 0xFF0382 = some (.ldi 3 255) := by decide

theorem wit_RunningMachineAlwaysSteps : State.reset.run = .running := by decide

theorem wit_HaltedAndFaultedAreTerminal : (busy 0 []).halt.run = .halted ∧
    ((busy 0 []).raise .pcOverflow 0x47).run = .faulted ∧ (busy 0 []).halt.run ≠ .running ∧
    Reaches 0 (busy 0 []).halt (busy 0 []).halt := ⟨by decide, by decide, by decide, rfl⟩

theorem wit_UnknownOpcodeRaisesIllegalInstruction : (busy 255 [0xA1]).run = .running ∧
    (busy 255 [0xA1]).memRead (busy 255 [0xA1]).pc.toNat = some 0xA1 ∧ ∀ m : Mnemonic, m.opcode ≠ 0xA1 :=
  ⟨by decide, by decide, wit_CheckedDecoder_illegal⟩

theorem wit_MissingOperandRaisesOperandFetchFault :
    (busy 255 [0x47]).run = .running ∧ (busy 255 [0x47]).memRead 255 = some Mnemonic.prn.opcode ∧
    255 < (busy 255 [0x47]).pc.toNat + operandCount Mnemonic.prn.opcode ∧
    (busy 254 [0x82, 0x00]).memRead 254 = some Mnemonic.ldi.opcode ∧
    255 < (busy 254 [0x82, 0x00]).pc.toNat + operandCount Mnemonic.ldi.opcode := by decide

theorem wit_BadRegisterOperandRaisesRegisterIndexFault :
    (Instr.jeq 8).wellFormed = false ∧ (Instr.add 0 8).wellFormed = false := by decide

theorem wit_AutoAdvancePastTheTop : (busy 254 []).run = .running ∧ (busy 254 []).pc = 254 ∧
    (busy 253 []).run = .running ∧ (busy 253 []).pc = 253 ∧ (7 : Byte).toNat < 8 ∧
    (busy 254 []).memRead (busy 254 []).x[7].toNat = some 0x55 := by decide

theorem wit_CallAndFallThroughAtTheTop : (busy 254 []).pc = 254 ∧ (7 : Byte).toNat < 8 ∧
    (busy 254 []).fl.getLsbD 0 = true ∧ ((busy 254 []).writeFl 0x02).fl.getLsbD 0 = false := by decide

/-- Each answer of `State.firstFault` occurs, in a running state. -/
theorem wit_StepRaisesExactlyTheFirstFault :
    [busy 0 [0x01], busy 255 [0x01], busy 0 [0xA1], busy 254 [0x82], busy 0 [0x47, 0x08], busy 254 [0x47, 0x07],
     busy 254 [0x50, 0x07]].map (fun s => (s.run, s.firstFault)) =
      [(.running, none), (.running, none), (.running, some .illegalInstruction), (.running, some .operandFetch),
       (.running, some .registerIndex), (.running, some .pcOverflow), (.running, some .pcOverflow)] ∧
    setsPc (busy 254 [0x47, 0x07]).fetchOpcode = false ∧ setsPc (busy 254 [0x50, 0x07]).fetchOpcode = true := by decide

/-- `pc ≤ 252`: ExecLdiAddMulWriteTheirRegister, ExecCmpOverwritesFlags. -/
theorem wit_Exec_three_bytes : (busy 252 []).pc.toNat ≤ 252 ∧ (7 : Byte).toNat < 8 := by decide

/-- `pc ≤ 253`: ExecPrnAppendsTheRegister, ExecPushStoresBelowTheStackPointer, ExecPopLoadsFromTheStackPointer,
ExecCallAndRetTransferThroughTheStack, ExecJumpsWriteOnlyPc. -/
theorem wit_Exec_two_bytes : (busy 253 []).pc.toNat ≤ 253 ∧ (7 : Byte).toNat < 8 ∧
    (busy 253 []).memRead (busy 253 []).x[7].toNat = some 0x55 := by decide

theorem wit_StepHltRule : (busy 255 [0x01]).run = .running ∧ (busy 255 [0x01]).memRead 255 = some 0x01 := by decide

/-- A state that meets the hypotheses of the fault clauses and of both completion clauses of a rule whose instruction has three
bytes, `ir` being its opcode: StepLdiRule, StepAddRule, StepMulRule, StepCmpRule. -/
theorem wit_Step_three_bytes : ∀ ir ∈ [(0x82 : Byte), 0xA0, 0xA2, 0xA7],
    ((busy 254 [ir]).run = .running ∧ (busy 254 [ir]).memRead 254 = some ir ∧ 254 ≤ (busy 254 [ir]).pc.toNat) ∧
    ((busy 253 [ir, 8, 8]).memRead 253 = some ir ∧ (busy 253 [ir, 8, 8]).memRead 254 = some 8 ∧
      (busy 253 [ir, 8, 8]).memRead 255 = some 8 ∧ 7 < (8 : Byte).toNat) ∧
    ((busy 253 [ir, 7, 7]).memRead 253 = some ir ∧ (busy 253 [ir, 7, 7]).memRead 254 = some 7 ∧
      (busy 253 [ir, 7, 7]).memRead 255 = some 7 ∧ (7 : Byte).toNat < 8 ∧ (busy 253 [ir, 7, 7]).pc.toNat = 253) ∧
    ((busy 252 [ir, 0, 7]).run = .running ∧ (busy 252 [ir, 0, 7]).memRead 252 = some ir ∧
      (busy 252 [ir, 0, 7]).memRead 253 = some 0 ∧ (busy 252 [ir, 0, 7]).memRead 254 = some 7 ∧
      (busy 252 [ir, 0, 7]).pc.toNat < 253) := by decide

/-- The result variables of StepAddRule, StepMulRule and StepCmpRule exist: 1 and 0x80 are registers 0 and 7 of `busy`. -/
theorem wit_Step_alu_results : (0x81 : Byte).toNat = ((1 : Byte).toNat + (0x80 : Byte).toNat) % 256 ∧
    (0x80 : Byte).toNat = ((1 : Byte).toNat * (0x80 : Byte).toNat) % 256 ∧
    ((1 : Byte).toNat = (0x80 : Byte).toNat → (0x04 : Byte) = 0x01) ∧
    ((0x80 : Byte).toNat < (1 : Byte).toNat → (0x04 : Byte) = 0x02) ∧
    ((1 : Byte).toNat < (0x80 : Byte).toNat → (0x04 : Byte) = 0x04) := by decide

/-- The same for two bytes: StepPrnRule, StepPushRule, StepPopRule, StepCallRule, StepJmpRule, StepJeqRule, StepJneRule. -/
theorem wit_Step_two_bytes : ∀ ir ∈ [(0x47 : Byte), 0x45, 0x46, 0x50, 0x54, 0x55, 0x56],
    ((busy 255 [ir]).run = .running ∧ (busy 255 [ir]).memRead 255 = some ir ∧ (busy 255 [ir]).pc.toNat = 255) ∧
    ((busy 254 [ir, 8]).memRead 254 = some ir ∧ (busy 254 [ir, 8]).memRead 255 = some 8 ∧ 7 < (8 : Byte).toNat) ∧
    ((busy 254 [ir, 7]).memRead 254 = some ir ∧ (busy 254 [ir, 7]).memRead 255 = some 7 ∧ (7 : Byte).toNat < 8 ∧
      (busy 254 [ir, 7]).pc.toNat = 254) ∧
    ((busy 253 [ir, 7]).run = .running ∧ (busy 253 [ir, 7]).memRead 253 = some ir ∧
      (busy 253 [ir, 7]).memRead 254 = some 7 ∧ (busy 253 [ir, 7]).pc.toNat < 254) := by decide

/-- The new SP, the pushed and the popped value and the return address of StepPushRule, StepPopRule, StepCallRule, for operand 7
and another one, SP at both ends of its range. -/
theorem wit_Step_stack_values :
    (0xFF : Byte).toNat = ((0 : Byte).toNat + 255) % 256 ∧ (0 : Byte).toNat = ((0xFF : Byte).toNat + 1) % 256 ∧
    (0x7F : Byte).toNat = ((busy 253 [0x45, 7]).x[7].toNat + 255) % 256 ∧
    (0x7F : Byte) = (if (7 : Byte).toNat = 7 then 0x7F else 0) ∧
    (busy 253 [0x46, 7]).memRead (busy 253 [0x46, 7]).x[7].toNat = some 0x55 ∧
    (0x56 : Byte).toNat = ((if (7 : Byte).toNat = 7 then (0x55 : Byte).toNat else 0x80) + 1) % 256 ∧
    (255 : Byte).toNat = (busy 253 [0x50, 7]).pc.toNat + 2 := by decide

theorem wit_StepRetRule : (busy 255 [0x11]).run = .running ∧ (busy 255 [0x11]).memRead 255 = some 0x11 ∧
    (busy 255 [0x11]).memRead (busy 255 [0x11]).x[7].toNat = some 0x55 ∧
    (0x81 : Byte).toNat = ((busy 255 [0x11]).x[7].toNat + 1) % 256 := by decide

/-- StepJeqRule, StepJneRule: bit 0 of FL set and clear, at 254 and below. -/
theorem wit_Step_jump_flags : ∀ pc ∈ [(253 : Byte), 254], ∀ ir ∈ [(0x55 : Byte), 0x56],
    (busy pc [ir, 0]).fl.getLsbD 0 = true ∧ ((busy pc [ir, 0]).writeFl 0x04).fl.getLsbD 0 = false ∧
    ((busy pc [ir, 0]).writeFl 0x04).memRead pc.toNat = some ir := by decide

/-- All four frames: each instruction named gives a next state. -/
theorem wit_Frames :
    [Instr.ldi 0 1, .add 0 1, .mul 0 1, .hlt, .prn 0, .cmp 0 1, .jmp 0, .jeq 0, .jne 0, .pop 0, .ret, .push 0, .call 0].all
      (fun i => (nextOf (exec i (busy 0x10 []))).isSome) = true := by decide

theorem wit_StepKeepsTheInvariant : (busy 0 [0x45, 0x02]).Inv ∧ (after (busy 0 [0x45, 0x02])).isSome = true ∧
    ((busy 0 []).raise .pcOverflow 0x47).Inv := by decide

theorem wit_ResetAndLaunchHaveTheInvariant : ∃ s, State.launch [0x82, 0x00, 0x08, 0x01] = .next s := ⟨_, rfl⟩

theorem wit_CanonicalMemories : (busy 0 [0x45, 0x02]).mem.wf ∧
    ∀ a, (busy 0 [0x45, 0x02]).mem.read a = Memory.read [(0, 0x45), (1, 0x02), (0x80, 0x55)] a :=
  ⟨by decide, fun _ => rfl⟩

theorem wit_FlagsStayLegal : (busy 0 [0xA7, 0x00, 0x01]).fl ∈ [(0x00 : Byte), 0x01, 0x02, 0x04] ∧
    (busy 0 [0xA7, 0x00, 0x01]).fl ≠ 0x00 ∧ (after (busy 0 [0xA7, 0x00, 0x01])).isSome = true := by decide

/-- FlagsAreWrittenByCmpAndReadInBitZeroByJeqJne: a CMP that completes, a CMP at 253, another instruction, a JEQ with two FL
values that agree in bit 0. -/
theorem wit_FlagsAreWrittenByCmp : (busy 0 [0xA7, 0x00, 0x01]).fetchOpcode = 0xA7 ∧
    (busy 0 [0xA7, 0x00, 0x01]).firstFault = none ∧ (busy 253 [0xA7, 0x00, 0x01]).firstFault = some .pcOverflow ∧
    (busy 0 [0x47, 0x00]).fetchOpcode ≠ 0xA7 ∧ (busy 0 [0x55, 0x00]).fetchOpcode = 0x55 ∧
    (0x03 : Byte).getLsbD 0 = (busy 0 [0x55, 0x00]).fl.getLsbD 0 ∧ (busy 0 [0x55, 0x00]).run = .running ∧
    (after (busy 0 [0x55, 0x00])).isSome = true := by decide

theorem wit_OnlyPushAndCallWriteMemory : (busy 0 [0x47, 0x00]).run = .running ∧
    (busy 0 [0x47, 0x00]).fetchOpcode ≠ 0x45 ∧ (busy 0 [0x47, 0x00]).fetchOpcode ≠ 0x50 ∧
    (after (busy 0 [0x47, 0x00])).isSome = true ∧ (after (busy 0 [0x45, 0x00])).isSome = true := by decide

theorem wit_OutputIsAppendOnly : (busy 0 [0x47, 0x07]).run = .running ∧ (busy 0 [0x47, 0x07]).fetchOpcode = 0x47 ∧
    (after (busy 0 [0x47, 0x07])).map State.out = some [9, 0x80] := by decide

theorem wit_CompletedRunsEndWithHlt : (busy 0 [0x01]).run = .running ∧ ∃ t, CompletesIn (busy 0 [0x01]) t :=
  ⟨by decide, _, rfl, 1, rfl⟩

theorem wit_RunsHaveExactlyOneOutcome : (∃ t, CompletesIn (busy 0 [0x01]) t) ∧ ∃ t, FaultsIn (busy 0 [0xA1]) t :=
  ⟨⟨_, rfl, 1, rfl⟩, _, rfl, 1, rfl⟩

/-- V80. -/
theorem wit_JumpToItselfRunsForEver : (setReg (busy 3 [0x54, 0x00]) 0 3).run = .running ∧ (0 : Byte).toNat < 8 ∧
    (setReg (busy 3 [0x54, 0x00]) 0 3).memRead 3 = some 0x54 ∧ (setReg (busy 3 [0x54, 0x00]) 0 3).memRead 4 = some 0x00 ∧
    (setReg (busy 3 [0x54, 0x00]) 0 3).x[0] = (setReg (busy 3 [0x54, 0x00]) 0 3).pc := by decide

theorem wit_PushThenPop : (0 : Byte).toNat < 7 ∧ (6 : Byte).toNat < 7 ∧ (busy 251 [0x45, 0x00, 0x46, 0x06]).mem.wf ∧
    (busy 251 [0x45, 0x00, 0x46, 0x06]).run = .running ∧ (busy 251 [0x45, 0x00, 0x46, 0x06]).pc.toNat ≤ 251 ∧
    (busy 251 [0x45, 0x00, 0x46, 0x06]).memRead 251 = some 0x45 ∧
    (busy 251 [0x45, 0x00, 0x46, 0x06]).memRead 252 = some 0x00 ∧
    (busy 251 [0x45, 0x00, 0x46, 0x06]).memRead 253 = some 0x46 ∧
    (busy 251 [0x45, 0x00, 0x46, 0x06]).memRead 254 = some 0x06 ∧
    ∀ k < 4, ((busy 251 [0x45, 0x00, 0x46, 0x06]).x[7] - 1).toNat ≠ (busy 251 [0x45, 0x00, 0x46, 0x06]).pc.toNat + k := by
  decide

theorem wit_RetAfterCall : (1 : Byte).toNat < 8 ∧ (busy 253 []).mem.wf ∧ (busy 253 []).pc.toNat ≤ 253 ∧
    ∃ t, exec (.call 1) (busy 253 []) = .next t ∧ (setReg t 0 77).x[7] = t.x[7] ∧
      (setReg t 0 77).memRead (setReg t 0 77).x[7].toNat = t.memRead t.x[7].toNat :=
  ⟨by decide, by decide, by decide, _, rfl, rfl, rfl⟩

/-- CmpThenJeqAndJneAreComplements: equal and unequal registers. -/
theorem wit_CmpThenJeqAndJne : (busy 250 []).pc.toNat ≤ 250 ∧ (7 : Byte).toNat < 8 ∧
    (nextOf (exec (.cmp 7 7) (busy 250 []))).isSome = true ∧ (busy 250 []).x[0] ≠ (busy 250 []).x[1] := by decide

theorem wit_StoredByteIsWhatTheNextFetchSees : (busy 253 []).mem.wf ∧ (busy 253 []).pc.toNat ≤ 253 ∧
    (∃ t, exec (.push 7) (busy 253 []) = .next t) ∧ ∃ t, exec (.call 7) (busy 253 []) = .next t :=
  ⟨by decide, by decide, ⟨_, rfl⟩, _, rfl⟩

end Sys2Proof.Tests
end

/-!
PROOFS. The state (`10_state.md`): reset and launch, and who reads and writes FL and the fault record.
-/

namespace Sys2Proof.Machine

/-! ## Reset and launch -/

/-- Settles O1: each of the eight registers, PC and FL of the reset state is the value written in `State.reset`. -/
theorem resetSetsRegistersPcFlags : Obligations.ResetSetsRegistersPcFlags := by
  refine ⟨fun i => ?_, rfl, rfl⟩
  fin_cases i <;> rfl

/-- An image that fits is laid in the reset state's memory; nothing else of reset changes. -/
theorem State.launch_of_le {image : List Byte} (h : image.length ≤ 256) :
    State.launch image = .next { State.reset with mem := Memory.place [] 0 image } := if_pos h

/-- Settles O3: what the loader's writes leave to be read is `Memory.read_place`, over the empty memory of reset. -/
theorem launchLoadsImageFromAddressZero : Obligations.LaunchLoadsImageFromAddressZero := by
  intro image himage
  refine ⟨_, State.launch_of_le himage, rfl, fun a ha => ?_⟩
  rw [State.memRead, Memory.read_place Memory.wf_nil 0 image ha]
  by_cases hlen : a < image.length
  · simp [hlen]
  · rw [if_neg (by omega), Memory.read_of_lt _ ha, Memory.cell_nil, List.getElem?_eq_none (by omega)]
    rfl

/-! ## What an instruction reads and writes of FL and the fault record

The two fields are replaced together, so that one walk through the handlers serves both noninterference statements. -/

/-- The state with other contents in FL and in the fault record. -/
def State.withStatus (s : State) (f : Byte) (r : Option FaultRecord) : State := { s with fl := f, flt := r }

@[simp] theorem State.withStatus_pc (s : State) (f : Byte) (r : Option FaultRecord) : (s.withStatus f r).pc = s.pc := rfl
@[simp] theorem State.withStatus_self (s : State) : s.withStatus s.fl s.flt = s := rfl

/-- A fault writes the record whatever was there, and leaves FL as it is. -/
theorem State.raise_withStatus (s : State) (f : Byte) (r : Option FaultRecord) (c : Cause) (ir : Byte) :
    (s.withStatus f r).raise c ir = (s.raise c ir).withStatus f (s.raise c ir).flt := rfl

/-- The PC update reads neither field; it writes the record where it faults. -/
theorem State.autoAdvance_withStatus {s : State} (hr : s.run ≠ .faulted) (f : Byte) (r : Option FaultRecord) (ir : Byte) :
    (s.withStatus f r).autoAdvance ir =
      (s.autoAdvance ir).withStatus f (if (s.autoAdvance ir).run = .faulted then (s.autoAdvance ir).flt else r) := by
  rcases s.autoAdvance_cases ir with ⟨hc, e⟩ | ⟨hc, hp | hh, e⟩ | ⟨hc, hp, hh, e⟩
  · rw [e, if_neg hr, (s.withStatus f r).autoAdvance_of_setsPc hc]
  · rw [e, State.writePc_run, if_neg hr, (s.withStatus f r).autoAdvance_of_le hc hp]
    rfl
  · rw [e, State.writePc_run, if_neg hr, (s.withStatus f r).autoAdvance_of_halted hc hh]
    rfl
  · rw [e, State.raise_run, if_pos rfl, (s.withStatus f r).autoAdvance_of_lt hc hh hp]
    rfl

theorem condJump_withStatus (taken : Bool) (a : Byte) (s : State) (f : Byte) (r : Option FaultRecord) :
    condJump taken a (s.withStatus f r) = (condJump taken a s).map fun u => u.withStatus f r := by
  cases taken <;> simp only [condJump, State.withStatus_pc]
  · cases regIndex a <;> cases nextAddress (s.pc.toNat + 2) <;> rfl
  · cases regIndex a <;> rfl

/-- A handler reads nothing of the fault record, and nothing of FL but the E bit in JEQ and JNE; CMP overwrites FL, and no other
handler writes either field. -/
theorem handler_withStatus {i : Instr} {s : State} {f : Byte}
    (hE : i.mnemonic = .jeq ∨ i.mnemonic = .jne → f.getLsbD 0 = s.fl.getLsbD 0) (r : Option FaultRecord) :
    handler i (s.withStatus f r) =
      (handler i s).map fun u => u.withStatus (if i.mnemonic = .cmp then u.fl else f) r := by
  cases i with
  | hlt | ret => rfl
  | ldi a _ | prn a | push a | pop a | jmp a =>
    simp only [handler, ldiHandler, prnHandler, pushHandler, popHandler, jmpHandler]
    cases regIndex a <;> rfl
  | add a b | mul a b | cmp a b =>
    simp only [handler, aluHandler]
    cases regIndex a <;> cases regIndex b <;> rfl
  | call a =>
    simp only [handler, callHandler, State.withStatus_pc]
    cases regIndex a <;> cases nextAddress (s.pc.toNat + 2) <;> rfl
  | jeq a =>
    have e : (s.withStatus f r).equalBit = s.equalBit := hE (.inl rfl)
    simp only [handler, e]
    exact condJump_withStatus _ a s f r
  | jne a =>
    have e : (s.withStatus f r).equalBit = s.equalBit := hE (.inr rfl)
    simp only [handler, e]
    exact condJump_withStatus _ a s f r

/-- Only HLT's handler changes the run state, and no handler makes a running machine FAULTED. -/
theorem handler_ok_run {i : Instr} {s u : State} (h : handler i s = .ok u) : u.run = s.run ∨ u.run = .halted := by
  obtain ⟨-, -, h⟩ := handler_ok_cases h
  rcases h with ⟨rfl, rfl⟩ | ⟨a, imm, ha, rfl, rfl⟩ | ⟨a, ha, rfl, rfl⟩ | ⟨a, b, ha, hb, rfl, rfl⟩ |
    ⟨a, b, ha, hb, rfl, rfl⟩ | ⟨a, b, ha, hb, rfl, rfl⟩ | ⟨a, ha, rfl, rfl⟩ | ⟨a, ha, rfl, rfl⟩ |
    ⟨a, ha, rfl, -, rfl⟩ | ⟨rfl, rfl⟩ | ⟨a, ha, rfl, rfl⟩ | ⟨a, ha, rfl, -, rfl⟩ | ⟨a, ha, rfl, -, rfl⟩
  · exact .inr rfl
  all_goals exact .inl rfl

/-- A handler that passes any FL through, and is not CMP's, keeps the FL it was given. -/
theorem handler_ok_fl_of_ne_cmp {i : Instr} {s u : State} (h : handler i s = .ok u) (hm : i.mnemonic ≠ .cmp) :
    u.fl = s.fl := by
  have e := handler_withStatus (i := i) (s := s) (f := s.fl) (fun _ => rfl) s.flt
  rw [State.withStatus_self, h, Except.map] at e
  simp only [if_neg hm] at e
  rw [Except.ok.inj e]
  rfl

/-- CMP's handler leaves exactly one of the three flags. -/
theorem handler_ok_fl_of_cmp {i : Instr} {s u : State} (h : handler i s = .ok u) (hm : i.mnemonic = .cmp) :
    u.fl ∈ [0x01, 0x02, 0x04] := by
  cases i with
  | cmp a b =>
    obtain ⟨-, -, hc⟩ := handler_ok_cases h
    simp only [reduceCtorEq, false_and, exists_false, or_false, false_or] at hc
    obtain ⟨a', b', ha, hb, -, rfl⟩ := hc
    rcases compareFlags_cases s.x[a'.toNat] s.x[b'.toNat] with ⟨-, e⟩ | ⟨-, e⟩ | ⟨-, e⟩ <;>
      simp [e, flagE, flagG, flagL]
  | _ => cases hm

/-! ## Which steps write FL, in terms of the instruction fetched -/

/-- The step is a CMP that reaches its effect: no fault is raised before it (`60_exceptions.md` R148). -/
abbrev State.writesFl (s : State) : Prop :=
  s.fetchOpcode = 0xA7 ∧ (s.firstFault = none ∨ s.firstFault = some .pcOverflow)

theorem opcode_inj {m n : Mnemonic} : m.opcode = n.opcode ↔ m = n :=
  ⟨fun h => Option.some.inj (by rw [← dispatch_opcode m, h, dispatch_opcode]), congrArg _⟩

theorem State.firstFault_of_illegal {s : State} (h : dispatch s.fetchOpcode = none) :
    s.firstFault = some .illegalInstruction := if_pos h

theorem State.firstFault_of_operandMissing {s : State} {m : Mnemonic} (hm : m.opcode = s.fetchOpcode)
    (hb : m.build s.fetchOpA s.fetchOpB = none) : s.firstFault = some .operandFetch := by
  rw [Mnemonic.build_eq_none_iff, hm] at hb
  rw [State.firstFault, ← hm, dispatch_opcode, hm, if_neg (by simp), if_pos (hb.imp id (And.imp_left Eq.symm))]

/-- The condition of RegisterIndexFault, read off the fetched bytes, is that the instruction they make is ill-formed. -/
theorem State.badRegister_of_instr {s : State} {i : Instr} (h : s.fetchDecode = .instr i) :
    s.badRegister = !i.wellFormed := by
  obtain ⟨ho, hb⟩ := decode_eq_instr_iff.1 h
  have above (r : Byte) : (!decide (r.toNat < 8)) = decide (7 < r.toNat) := by
    rw [← decide_not]
    exact decide_eq_decide.2 Nat.not_lt
  rw [State.badRegister, ← ho, Instr.opcode, operandCount_opcode]
  cases i with
  | hlt | ret => simp [Instr.mnemonic, Mnemonic.opcode, Instr.wellFormed, Instr.regOperands]
  | prn a | push a | pop a | call a | jmp a | jeq a | jne a =>
    obtain ⟨_, ha, ⟨⟩⟩ := Option.map_eq_some_iff.1 hb
    simp [ha, Instr.mnemonic, Mnemonic.opcode, Instr.wellFormed, Instr.regOperands, above]
  | ldi a b | add a b | mul a b | cmp a b =>
    obtain ⟨_, ha, hb⟩ := Option.bind_eq_some_iff.1 hb
    obtain ⟨_, hb, ⟨⟩⟩ := Option.map_eq_some_iff.1 hb
    simp [ha, hb, Instr.mnemonic, Mnemonic.opcode, Instr.wellFormed, Instr.regOperands, above]

theorem State.firstFault_of_instr {s : State} {i : Instr} (h : s.fetchDecode = .instr i) :
    s.firstFault = if i.wellFormed then (if s.overflowsPc then some .pcOverflow else none) else some .registerIndex := by
  obtain ⟨ho, hb⟩ := decode_eq_instr_iff.1 h
  have hu : ¬((1 ≤ operandCount s.fetchOpcode ∧ s.fetchOpA = none) ∨
      (2 = operandCount s.fetchOpcode ∧ s.fetchOpB = none)) := fun hn => by
    rw [eq_comm (a := 2), ← ho, Instr.opcode, ← Mnemonic.build_eq_none_iff, hb] at hn
    cases hn
  rw [State.firstFault, if_neg (by rw [← ho, Instr.opcode, dispatch_opcode]; simp), if_neg hu, State.badRegister_of_instr h]
  cases i.wellFormed <;> rfl

theorem State.writesFl_iff_of_instr {s : State} {i : Instr} (h : s.fetchDecode = .instr i) :
    s.writesFl ↔ i.mnemonic = .cmp ∧ i.wellFormed = true := by
  have ho : i.mnemonic.opcode = s.fetchOpcode := (decode_eq_instr_iff.1 h).1
  rw [State.writesFl, ← ho, State.firstFault_of_instr h]
  refine and_congr (opcode_inj (n := .cmp)) ?_
  cases i.wellFormed <;> cases s.overflowsPc <;> simp

/-- CMP raises no fault in its handler but for an operand that names no register. -/
theorem not_cmp_wellFormed_of_error {i : Instr} {s : State} {c : Cause} (h : handler i s = .error c) :
    ¬(i.mnemonic = .cmp ∧ i.wellFormed = true) := by
  rintro ⟨hm, hwf⟩
  rcases handler_error_cases h with ⟨-, hf⟩ | ⟨-, -, hp, -⟩
  · rw [hf] at hwf
    cases hwf
  · rw [Instr.opcode, hm] at hp
    cases hp

/-- All a step can be, as to FL and the fault record: a fault on the untouched state, at a step that does not reach CMP's effect;
or a handler's effects and the PC update, at one that reaches it exactly where the handler is CMP's. -/
theorem step_effect_cases {s t : State} (h : step s = .next t) :
    (¬ s.writesFl ∧ ∃ c, t = s.raise c s.fetchOpcode) ∨
    ∃ (i : Instr) (u : State), (s.writesFl ↔ i.mnemonic = .cmp) ∧ handler i s = .ok u ∧ t = u.autoAdvance i.opcode := by
  obtain ⟨-, ⟨hd, rfl⟩ | ⟨m, hm, hb, rfl⟩ | ⟨i, hi, hd, he⟩⟩ := step_cases h
  · exact .inl ⟨by simp [State.writesFl, State.firstFault_of_illegal hd], _, rfl⟩
  · exact .inl ⟨by simp [State.writesFl, State.firstFault_of_operandMissing hm hb], _, rfl⟩
  · have hw := State.writesFl_iff_of_instr hd
    rcases exec_cases he with ⟨c, hc, rfl⟩ | ⟨u, hu, rfl⟩
    · exact .inl ⟨fun hs => not_cmp_wellFormed_of_error hc (hw.1 hs), c, hi ▸ rfl⟩
    · exact .inr ⟨i, u, by rw [hw, (handler_ok_cases hu).1]; simp, hu, rfl⟩

/-- A step that does not reach CMP's effect keeps FL (`10_state.md` R17). -/
theorem step_fl_of_not_writesFl {s t : State} (h : step s = .next t) (hw : ¬ s.writesFl) : t.fl = s.fl := by
  rcases step_effect_cases h with ⟨-, c, rfl⟩ | ⟨i, u, hi, hu, rfl⟩
  · rfl
  · rw [State.autoAdvance_fl, handler_ok_fl_of_ne_cmp hu (hi.not.1 hw)]

/-- A CMP that reaches its effect leaves exactly one flag (`42_alu.md` R104). -/
theorem step_fl_of_writesFl {s t : State} (h : step s = .next t) (hw : s.writesFl) : t.fl ∈ [0x01, 0x02, 0x04] := by
  rcases step_effect_cases h with ⟨hn, -⟩ | ⟨i, u, hi, hu, rfl⟩
  · exact absurd hw hn
  · rw [State.autoAdvance_fl]
    exact handler_ok_fl_of_cmp hu (hi.1 hw)

/-- Only a fault writes the fault record (`60_exceptions.md` R149). -/
theorem step_flt_of_not_faulted {s t : State} (h : step s = .next t) (ht : t.run ≠ .faulted) : t.flt = s.flt := by
  rcases step_effect_cases h with ⟨-, c, rfl⟩ | ⟨i, u, -, hu, rfl⟩
  · exact absurd rfl ht
  · obtain ⟨-, hflt, -⟩ := handler_ok_cases hu
    rcases u.autoAdvance_run_flt_cases i.opcode with ⟨-, e⟩ | ⟨-, hf, -⟩
    · rw [e, hflt]
    · exact absurd hf ht

/-! ## Other contents of FL and the fault record in front of a step -/

/-- The fetch and the lookup read memory and PC only. -/
theorem State.fetchDecode_withStatus (s : State) (f : Byte) (r : Option FaultRecord) :
    (s.withStatus f r).fetchDecode = s.fetchDecode := rfl

/-- The instruction run with other contents in FL and in the record: what it writes there it writes again, and what it does not
write stays as replaced. -/
theorem exec_withStatus {i : Instr} {s t : State} {f : Byte} (hr : s.run = .running)
    (hE : i.mnemonic = .jeq ∨ i.mnemonic = .jne → f.getLsbD 0 = s.fl.getLsbD 0) (r : Option FaultRecord)
    (h : exec i s = .next t) :
    exec i (s.withStatus f r) = .next (t.withStatus (if i.mnemonic = .cmp ∧ i.wellFormed = true then t.fl else f)
      (if t.run = .faulted then t.flt else r)) := by
  have hh := handler_withStatus hE r
  rcases exec_cases h with ⟨c, hc, rfl⟩ | ⟨u, hu, rfl⟩
  · rw [hc] at hh
    rw [exec_of_error hh, if_neg (not_cmp_wellFormed_of_error hc), State.raise_run, if_pos rfl, State.raise_withStatus]
  · have hrun : u.run ≠ .faulted := by rcases handler_ok_run hu with e | e <;> simp [e, hr]
    obtain ⟨hwf, -⟩ := handler_ok_cases hu
    rw [hu] at hh
    rw [exec_of_ok hh, State.autoAdvance_withStatus hrun, State.autoAdvance_fl]
    simp only [hwf, and_true]

/-- The step with other contents in FL, its bit 0 kept where the opcode is JEQ's or JNE's, and in the fault record. -/
theorem step_withStatus {s t : State} {f : Byte} (h : step s = .next t)
    (hE : s.fetchOpcode = 0x55 ∨ s.fetchOpcode = 0x56 → f.getLsbD 0 = s.fl.getLsbD 0) (r : Option FaultRecord) :
    step (s.withStatus f r) = .next (t.withStatus (if s.writesFl then t.fl else f)
      (if t.run = .faulted then t.flt else r)) := by
  obtain ⟨hr, hc⟩ := step_cases h
  have hr' : (s.withStatus f r).run = .running := hr
  have hdec := s.fetchDecode_withStatus f r
  rcases hc with ⟨hd, rfl⟩ | ⟨m, hm, hb, rfl⟩ | ⟨i, hi, hd, he⟩
  · rw [step_of_illegal hr' (hdec.trans (decode_eq_illegal_iff.2 ⟨hd, rfl⟩)),
      if_neg (by simp [State.writesFl, State.firstFault_of_illegal hd]), State.raise_run, if_pos rfl]
    rfl
  · rw [step_of_operandMissing hr' (hdec.trans (decode_eq_operandMissing_iff.2 ⟨hm, hb⟩)),
      if_neg (by simp [State.writesFl, State.firstFault_of_operandMissing hm hb]), State.raise_run, if_pos rfl]
    rfl
  · have hE' : i.mnemonic = .jeq ∨ i.mnemonic = .jne → f.getLsbD 0 = s.fl.getLsbD 0 := fun hm => hE <| by
      rw [← hi, Instr.opcode]
      exact hm.imp (congrArg Mnemonic.opcode) (congrArg Mnemonic.opcode)
    rw [step_of_instr hr' (hdec.trans hd), exec_withStatus hr hE' r he]
    simp only [State.writesFl_iff_of_instr hd]

/-- Settles O2: the step with FL as it is and the record replaced, by `step_withStatus`. -/
theorem resetIsRunningAndFaultRecordIsNeverRead : Obligations.ResetIsRunningAndFaultRecordIsNeverRead := by
  refine ⟨rfl, fun s t _ h r => ?_⟩
  have hfl : (if s.writesFl then t.fl else s.fl) = t.fl := by
    by_cases hw : s.writesFl
    · exact if_pos hw
    · rw [if_neg hw, step_fl_of_not_writesFl h hw]
  have hs := step_withStatus (f := s.fl) h (fun _ => rfl) r
  rw [hfl] at hs
  exact hs

/-- Settles O49: the step with FL replaced and the record as it is, by `step_withStatus`. -/
theorem flagsAreWrittenByCmpAndReadInBitZeroByJeqJne : Obligations.FlagsAreWrittenByCmpAndReadInBitZeroByJeqJne := by
  intro s t _ h
  refine ⟨fun hne => step_fl_of_not_writesFl h fun hw => hne hw.1, fun ho hf => step_fl_of_writesFl h ⟨ho, hf⟩,
    fun f hE => ?_⟩
  have hflt : (if t.run = .faulted then t.flt else s.flt) = t.flt := by
    by_cases ht : t.run = .faulted
    · exact if_pos ht
    · rw [if_neg ht, step_flt_of_not_faulted h ht]
  have hs := step_withStatus h hE s.flt
  rw [hflt] at hs
  exact hs

end Sys2Proof.Machine

/-!
PROOFS. The execution engine (`40_execution_engine.md`): a fetched byte that is no opcode.
-/

namespace Sys2Proof.Machine

/-- Settles O14: the byte at PC is the opcode fetched, the lookup refuses it, and such a step ends before a handler is invoked. -/
theorem unknownOpcodeRaisesIllegalInstruction : Obligations.UnknownOpcodeRaisesIllegalInstruction := by
  intro s ir hr hmem hno
  have hir : s.fetchOpcode = ir := Option.some.inj (s.memRead_pc.symm.trans hmem)
  have hd : s.fetchDecode = .illegal ir := decode_eq_illegal_iff.2 ⟨dispatch_eq_none_iff.2 (hir ▸ hno), hir.symm⟩
  rw [step_of_illegal hr hd, State.rejectFetch, hir, State.raise]

end Sys2Proof.Machine

/-!
PROOFS. LDI and PRN (`41_hlt_ldi_prn.md`): each rule whole, from the bytes in memory.
-/

namespace Sys2Proof.Machine

/-! ## A step at the opcode byte of a mnemonic, for every mnemonic alike -/

theorem operandCount_opcode_le (m : Mnemonic) : operandCount m.opcode ≤ 2 := by
  rw [operandCount_opcode]
  cases m <;> simp

/-- The last of the `n` operands lies past address 255, so it is `NONE` (`40_execution_engine.md` R75). -/
theorem step_of_operandPastMemory {s : State} {m : Mnemonic} (n : Nat) (hr : s.run = .running)
    (h : s.memRead s.pc.toNat = some m.opcode) (hn : operandCount m.opcode = n) (hp : 255 < s.pc.toNat + n) :
    step s = .next (s.raise .operandFetch m.opcode) := by
  have hpc := s.pc.isLt
  have hle := hn ▸ operandCount_opcode_le m
  have hb : m.build s.fetchOpA s.fetchOpB = none := by
    rw [Mnemonic.build_eq_none_iff, hn]
    obtain rfl | rfl : n = 1 ∨ n = 2 := by omega
    · exact .inl ⟨le_rfl, Memory.read_of_le _ hp⟩
    · exact .inr ⟨rfl, Memory.read_of_le _ hp⟩
  rw [step_of_opcode hr h, hb]

/-- The operands the mnemonic uses are there: the step is the instruction built from them. -/
theorem step_of_build {s : State} {m : Mnemonic} {i : Instr} (hr : s.run = .running)
    (h : s.memRead s.pc.toNat = some m.opcode) (hb : m.build s.fetchOpA s.fetchOpB = some i) : step s = exec i s := by
  rw [step_of_opcode hr h, hb]

theorem Instr.not_wellFormed_of_mem {i : Instr} {r : Byte} (hr : r ∈ i.regOperands) (h : 7 < r.toNat) :
    i.wellFormed = false :=
  List.all_eq_false.2 ⟨r, hr, mt of_decide_eq_true (Nat.not_lt.2 h)⟩

/-- An ill-formed instruction faults on the untouched state (`40_execution_engine.md` R76). -/
theorem exec_of_not_wellFormed {i : Instr} (s : State) (h : i.wellFormed = false) :
    exec i s = .next (s.raise .registerIndex i.opcode) := by
  cases hh : handler i s with
  | ok u => exact absurd (handler_ok_cases hh).1 (by simp [h])
  | error c =>
    rcases handler_error_cases hh with ⟨rfl, -⟩ | ⟨-, hwf, -⟩
    · exact exec_of_error hh
    · exact absurd hwf (by simp [h])

/-! ## The two rules -/

/-- Settles O29: from 254 on an operand is missing; else the step is LDI's, whose handler faults on a bad index or writes the
register, and the PC update then overflows at 253 and fits below it. -/
theorem stepLdiRule : Obligations.StepLdiRule := by
  intro s hr hop
  refine ⟨fun hp => step_of_operandPastMemory (m := .ldi) 2 hr hop (operandCount_opcode _) (by omega),
    fun a imm ha himm => ?_⟩
  have hstep : step s = exec (.ldi a imm) s :=
    step_of_build (m := .ldi) hr hop (by simp [Mnemonic.build, State.fetchOpA, State.fetchOpB, ha, himm])
  rw [hstep]
  refine ⟨fun hbad => exec_of_not_wellFormed s (Instr.not_wellFormed_of_mem List.mem_cons_self hbad), fun hreg => ?_⟩
  have hok : handler (.ldi a imm) s = .ok _ := ldiHandler_of_lt hreg imm s
  refine ⟨fun hp => ?_, fun hp => ?_⟩
  · exact exec_of_ok_of_lt 2 hok (setsPc_opcode _) (operandCount_opcode _) (by simp [hr]) (by simp [hp])
  · exact exec_of_ok_of_le 2 hok (setsPc_opcode _) (operandCount_opcode _) (by simp only; omega)

/-- Settles O30: at 255 the operand is missing; else the step is PRN's, whose handler faults on a bad index or emits the
register, and the PC update then overflows at 254 and fits below it. -/
theorem stepPrnRule : Obligations.StepPrnRule := by
  intro s hr hop
  refine ⟨fun hp => step_of_operandPastMemory (m := .prn) 1 hr hop (operandCount_opcode _) (by omega), fun a ha => ?_⟩
  have hstep : step s = exec (.prn a) s :=
    step_of_build (m := .prn) hr hop (by simp [Mnemonic.build, State.fetchOpA, ha])
  rw [hstep]
  refine ⟨fun hbad => exec_of_not_wellFormed s (Instr.not_wellFormed_of_mem List.mem_cons_self hbad), fun hreg => ?_⟩
  have hok : handler (.prn a) s = .ok _ := prnHandler_of_lt hreg s
  refine ⟨fun hp => ?_, fun hp => ?_⟩
  · exact exec_of_ok_of_lt 1 hok (setsPc_opcode _) (operandCount_opcode _) (by simp [hr]) (by simp [hp])
  · exact exec_of_ok_of_le 1 hok (setsPc_opcode _) (operandCount_opcode _) (by simp only; omega)

end Sys2Proof.Machine

/-!
PROOFS. ADD and MUL (`42_alu.md`): each rule whole, from the bytes in memory.
-/

namespace Sys2Proof.Machine

/-! ## A step at the opcode byte of an ALU instruction, for every operation alike -/

/-- The opcode table's entry that drives the operation (`42_alu.md` R100). -/
def AluOp.mnemonic : AluOp → Mnemonic
  | .add => .add
  | .mul => .mul
  | .cmp => .cmp

/-- The instruction that drives the operation, with its operand bytes. -/
def AluOp.instr : AluOp → Byte → Byte → Instr
  | .add => .add
  | .mul => .mul
  | .cmp => .cmp

@[simp] theorem AluOp.instr_mnemonic (op : AluOp) (a b : Byte) : (op.instr a b).mnemonic = op.mnemonic := by
  cases op <;> rfl

@[simp] theorem AluOp.instr_regOperands (op : AluOp) (a b : Byte) : (op.instr a b).regOperands = [a, b] := by
  cases op <;> rfl

@[simp] theorem AluOp.handler_instr (op : AluOp) (a b : Byte) : handler (op.instr a b) = aluHandler op a b := by
  cases op <;> rfl

@[simp] theorem AluOp.build_mnemonic (op : AluOp) (a b : Byte) :
    op.mnemonic.build (some a) (some b) = some (op.instr a b) := by
  cases op <;> rfl

@[simp] theorem AluOp.operandCount_mnemonic_opcode (op : AluOp) : operandCount op.mnemonic.opcode = 2 := by
  cases op <;> rfl

@[simp] theorem AluOp.setsPc_mnemonic_opcode (op : AluOp) : setsPc op.mnemonic.opcode = false := by
  cases op <;> rfl

/-- The ALU does not write PC (`42_alu.md` R100). -/
@[simp] theorem aluExecute_pc (op : AluOp) (i j : RegIdx) (s : State) : (aluExecute op i j s).pc = s.pc := by
  cases op <;> rfl

/-- The ALU does not stop the machine (`42_alu.md` R100). -/
@[simp] theorem aluExecute_run (op : AluOp) (i j : RegIdx) (s : State) : (aluExecute op i j s).run = s.run := by
  cases op <;> rfl

/-- What the rules of ADD, MUL and CMP share: from 254 on an operand is missing; else a bad index faults on the untouched state,
or the ALU's effect is kept, and the PC update overflows at 253 and fits below it. -/
theorem step_alu_rule {op : AluOp} {s : State} (hr : s.run = .running)
    (hop : s.memRead s.pc.toNat = some op.mnemonic.opcode) :
    (254 ≤ s.pc.toNat → step s = .next (s.raise .operandFetch op.mnemonic.opcode)) ∧
    ∀ a b, s.memRead (s.pc.toNat + 1) = some a → s.memRead (s.pc.toNat + 2) = some b →
      (7 < a.toNat ∨ 7 < b.toNat → step s = .next (s.raise .registerIndex op.mnemonic.opcode)) ∧
      ∀ (ha : a.toNat < 8) (hb : b.toNat < 8) (u : State), aluExecute op ⟨a.toNat, ha⟩ ⟨b.toNat, hb⟩ s = u →
        (s.pc.toNat = 253 → step s = .next (u.raise .pcOverflow op.mnemonic.opcode)) ∧
        (s.pc.toNat < 253 → step s = .next { u with pc := s.pc + 3 }) := by
  refine ⟨fun hp => step_of_operandPastMemory 2 hr hop op.operandCount_mnemonic_opcode (by omega), fun a b hA hB => ?_⟩
  have hstep : step s = exec (op.instr a b) s := step_of_build hr hop (by simp [State.fetchOpA, State.fetchOpB, hA, hB])
  have hopcode : (op.instr a b).opcode = op.mnemonic.opcode := congrArg Mnemonic.opcode (op.instr_mnemonic a b)
  rw [hstep, ← hopcode]
  refine ⟨fun hbad => exec_of_not_wellFormed s ?_, fun ha hb u hu => ?_⟩
  · rcases hbad with h | h
    · exact Instr.not_wellFormed_of_mem (r := a) (by simp) h
    · exact Instr.not_wellFormed_of_mem (r := b) (by simp) h
  · have hok : handler (op.instr a b) s = .ok u := by rw [op.handler_instr, aluHandler_of_lt op ha hb, hu]
    have hpc : u.pc = s.pc := by rw [← hu, aluExecute_pc]
    have hrun : u.run = .running := by rw [← hu, aluExecute_run, hr]
    refine ⟨fun hp => ?_, fun hp => ?_⟩
    · exact exec_of_ok_of_lt 2 hok (by simp) (by simp) (by simp [hrun]) (by simp [hpc, hp])
    · rw [← hpc]
      exact exec_of_ok_of_le 2 hok (by simp) (by simp) (by rw [hpc]; omega)

/-! ## The results -/

/-- ADD's effect, the result named by its value (`42_alu.md` R102). -/
theorem aluExecute_add {s : State} {i j : RegIdx} {v : Byte} (hv : v.toNat = (s.x[i].toNat + s.x[j].toNat) % 256) :
    aluExecute .add i j s = { s with x := s.x.set i v } := by
  have hsum : v = aluAdd s.x[i] s.x[j] := BitVec.eq_of_toNat_eq (by rw [hv, aluAdd_eq, BitVec.toNat_add])
  rw [hsum]
  rfl

/-- MUL's effect, the result named by its value (`42_alu.md` R103). -/
theorem aluExecute_mul {s : State} {i j : RegIdx} {v : Byte} (hv : v.toNat = (s.x[i].toNat * s.x[j].toNat) % 256) :
    aluExecute .mul i j s = { s with x := s.x.set i v } := by
  have hprod : v = aluMul s.x[i] s.x[j] := BitVec.eq_of_toNat_eq (by rw [hv, aluMul_eq, BitVec.toNat_mul])
  rw [hprod]
  rfl

/-! ## The two rules -/

/-- Settles O31: `step_alu_rule` for the sum, `v` being the byte the ALU writes. -/
theorem stepAddRule : Obligations.StepAddRule := by
  intro s hr hop
  refine (step_alu_rule (op := .add) hr hop).imp_right fun hthere a b hA hB => ?_
  exact (hthere a b hA hB).imp_right fun hcomplete ha hb v hv => hcomplete ha hb _ (aluExecute_add hv)

/-- Settles O32: `step_alu_rule` for the product, `v` being the byte the ALU writes. -/
theorem stepMulRule : Obligations.StepMulRule := by
  intro s hr hop
  refine (step_alu_rule (op := .mul) hr hop).imp_right fun hthere a b hA hB => ?_
  exact (hthere a b hA hB).imp_right fun hcomplete ha hb v hv => hcomplete ha hb _ (aluExecute_mul hv)

end Sys2Proof.Machine

/-!
PROOFS. RET, JMP and JNE (`44_control_transfer.md`): each rule whole, from the bytes in memory.
-/

namespace Sys2Proof.Machine

/-- What the rules of the instructions with one register operand share, `mk` building the instruction: at 255 the operand is
missing; else a bad index faults on the untouched state, and in any case the step is the instruction's. -/
theorem step_regOperand_rule {m : Mnemonic} {mk : Byte → Instr} {s : State}
    (hbuild : ∀ opa opb, m.build opa opb = opa.map mk) (hregs : ∀ a, (mk a).regOperands = [a])
    (hr : s.run = .running) (hop : s.memRead s.pc.toNat = some m.opcode) :
    (s.pc.toNat = 255 → step s = .next (s.raise .operandFetch m.opcode)) ∧
    ∀ a, s.memRead (s.pc.toNat + 1) = some a →
      (7 < a.toNat → step s = .next (s.raise .registerIndex m.opcode)) ∧ step s = exec (mk a) s := by
  refine ⟨fun hp => ?_, fun a ha => ?_⟩
  · have hA : s.fetchOpA = none := Memory.read_of_le _ (by omega)
    have hb : m.build s.fetchOpA s.fetchOpB = none := by simp [hbuild, hA]
    rw [step_of_opcode hr hop, hb]
  · have hb : m.build s.fetchOpA s.fetchOpB = some (mk a) := by simp [hbuild, State.fetchOpA, ha]
    have hopcode : (mk a).opcode = m.opcode := congrArg Mnemonic.opcode (Mnemonic.build_mnemonic hb)
    rw [step_of_build hr hop hb, ← hopcode]
    exact ⟨fun hbad => exec_of_not_wellFormed s (Instr.not_wellFormed_of_mem (by simp [hregs]) hbad), rfl⟩

/-- Settles O37: RET uses no operand, so at any PC the step is its handler's effects; `v` is the byte it reads at SP and `q` the
incremented SP. -/
theorem stepRetRule : Obligations.StepRetRule := by
  intro s v q hr hop hv hq
  have hstep : step s = exec .ret s := step_of_build (m := .ret) hr hop rfl
  have hpop : s.loadTop = v := Option.some.inj (s.memRead_sp.symm.trans hv)
  have hsp : s.x[7] + 1 = q := BitVec.eq_of_toNat_eq (by rw [hq, BitVec.toNat_add]; rfl)
  rw [hstep, ← hpop, ← hsp]
  exact exec_of_ok_of_setsPc (retHandler_eq s) (setsPc_opcode _)

/-- Settles O38: `step_regOperand_rule`, and past the index check JMP's handler writes PC and nothing else. -/
theorem stepJmpRule : Obligations.StepJmpRule := by
  intro s hr hop
  refine (step_regOperand_rule (m := .jmp) (fun _ _ => rfl) (fun _ => rfl) hr hop).imp_right fun hthere a hA => ?_
  obtain ⟨hbad, hstep⟩ := hthere a hA
  exact ⟨hbad, fun ha => hstep.trans (exec_of_ok_of_setsPc (jmpHandler_of_lt ha s) (setsPc_opcode _))⟩

/-- Settles O40: `step_regOperand_rule`, and past the index check JNE jumps when E is clear; when E is set its handler faults at
254, where `p + 2` does not fit, and writes `p + 2` below. -/
theorem stepJneRule : Obligations.StepJneRule := by
  intro s hr hop
  refine (step_regOperand_rule (m := .jne) (fun _ _ => rfl) (fun _ => rfl) hr hop).imp_right fun hthere a hA => ?_
  obtain ⟨hbad, hstep⟩ := hthere a hA
  have hhandler (e : Bool) (he : s.fl.getLsbD 0 = e) : handler (.jne a) s = condJump (!e) a s := by subst he; rfl
  refine ⟨hbad, fun ha => ⟨fun he => ?_, fun he hp => ?_, fun he hp => ?_⟩⟩
  · exact hstep.trans (exec_of_ok_of_setsPc ((hhandler _ he).trans (condJump_true ha s)) (setsPc_opcode _))
  · exact hstep.trans (exec_of_error ((hhandler _ he).trans (condJump_false_of_gt ha s (by omega))))
  · exact hstep.trans (exec_of_ok_of_setsPc ((hhandler _ he).trans (condJump_false ha s (by omega))) (setsPc_opcode _))

end Sys2Proof.Machine

/-!
PROOFS. Encoding (`30_encoding.md`): the opcode assignment, decoding against encoding, and the checking decoder.
-/

namespace Sys2Proof

/-! ## The opcode assignment -/

/-- Settles O5: the lookup inverts the opcode column, and the two fields were evaluated mnemonic by mnemonic. -/
theorem opcodeAssignmentIsAcceptable : Obligations.OpcodeAssignmentIsAcceptable := by
  refine ⟨fun _ _ => Machine.opcode_inj.1, fun i => ?_, fun m => ?_⟩
  · rw [Instr.opcode, operandCount_opcode]
    cases i <;> rfl
  · rw [setsPc_opcode]
    cases m <;> decide

/-- A byte is illegal when it differs from each of the thirteen keys. -/
theorem dispatch_eq_none_iff_forall_key {ir : Byte} : dispatch ir = none ↔ ∀ k ∈ dispatchTable.map Prod.fst, ir ≠ k := by
  rw [dispatch_eq_none_iff]
  constructor
  · intro h k hk
    obtain ⟨⟨k, m⟩, hm, rfl⟩ := List.mem_map.1 hk
    have table : ∀ e ∈ dispatchTable, e.2.opcode = e.1 := by decide
    exact fun e => h m ((table _ hm).trans e.symm)
  · intro h m e
    exact h m.opcode (by cases m <;> decide) e.symm

/-- Settles O6: the words are decoded by computation, and the ten ranges are what thirteen keys leave of a byte. -/
theorem opcodeMapWordsAndIllegalBytes : Obligations.OpcodeMapWordsAndIllegalBytes := by
  refine ⟨rfl, rfl, rfl, rfl, rfl, rfl, rfl, rfl, rfl, rfl, rfl, rfl, rfl, rfl, fun ir opa opb => ?_⟩
  rw [decode_eq_illegal_iff, dispatch_eq_none_iff_forall_key]
  simp only [dispatchTable, List.map_cons, List.map_nil, List.forall_mem_cons, List.not_mem_nil, false_implies,
    implies_true, and_true, ne_eq, ← BitVec.toNat_inj, BitVec.le_def, BitVec.reduceToNat]
  omega

/-! ## Decoding against encoding -/

/-- An instruction is built from two fetched operands exactly when its own operand bytes stand among them in order; what it does
not use is not looked at (`40_execution_engine.md` R74). -/
theorem Instr.build_mnemonic_eq_some_iff {i : Instr} {opa opb : Option Byte} :
    i.mnemonic.build opa opb = some i ↔
      (∀ a, i.operands[0]? = some a → opa = some a) ∧ ∀ b, i.operands[1]? = some b → opb = some b := by
  cases i with
  | hlt | ret => simp [Instr.mnemonic, Mnemonic.build, Instr.operands]
  | prn a | push a | pop a | call a | jmp a | jeq a | jne a => simp [Instr.mnemonic, Mnemonic.build, Instr.operands]
  | ldi a b | add a b | mul a b | cmp a b =>
    cases opa <;> cases opb <;> simp [Instr.mnemonic, Mnemonic.build, Instr.operands]

theorem Instr.operands_length (i : Instr) : i.operands.length = operandCount i.opcode := by
  rw [Instr.opcode, operandCount_opcode]
  cases i <;> rfl

/-- The operand bytes of an instruction are the first `N` of a list exactly when it is built from the list's first two. -/
theorem Instr.build_mnemonic_getElem?_iff {i : Instr} {bytes : List Byte} :
    i.mnemonic.build bytes[0]? bytes[1]? = some i ↔ bytes = i.operands ++ bytes.drop (operandCount i.opcode) := by
  rw [Instr.build_mnemonic_eq_some_iff, ← i.operands_length]
  constructor
  · rintro ⟨h0, h1⟩
    cases i with
    | hlt | ret => rfl
    | prn a | push a | pop a | call a | jmp a | jeq a | jne a =>
      cases bytes with
      | nil => exact nomatch h0 a rfl
      | cons _ rest =>
        cases h0 a rfl
        rfl
    | ldi a b | add a b | mul a b | cmp a b =>
      rcases bytes with _ | ⟨_, _ | ⟨_, rest⟩⟩
      · exact nomatch h0 a rfl
      · exact nomatch h1 b rfl
      · cases h0 a rfl
        cases h1 b rfl
        rfl
  · intro h
    rw [h]
    exact ⟨fun a ha => List.getElem?_append_left (List.getElem?_eq_some_iff.1 ha).1 ▸ ha,
      fun b hb => List.getElem?_append_left (List.getElem?_eq_some_iff.1 hb).1 ▸ hb⟩

theorem decodeBytes_cons_eq_some_iff {ir : Byte} {bytes rest : List Byte} {i : Instr} :
    decodeBytes (ir :: bytes) = some (i, rest) ↔
      i.opcode = ir ∧ i.mnemonic.build bytes[0]? bytes[1]? = some i ∧ rest = bytes.drop (operandCount ir) := by
  rw [decodeBytes, ← and_assoc, ← decode_eq_instr_iff]
  cases decode ir bytes[0]? bytes[1]? <;> simp [eq_comm]

/-- Settles O7: both ways, the bytes after the opcode are the operands and a rest. -/
theorem decodeAndEncodeAgree : Obligations.DecodeAndEncodeAgree := by
  refine ⟨fun i rest => ?_, fun bytes i rest h => ?_⟩
  · have hdrop : (i.operands ++ rest).drop (operandCount i.opcode) = rest :=
      List.drop_left' i.operands_length
    exact decodeBytes_cons_eq_some_iff.2
      ⟨rfl, Instr.build_mnemonic_getElem?_iff.2 (congrArg _ hdrop.symm), hdrop.symm⟩
  · cases bytes with
    | nil => cases h
    | cons ir bytes =>
      obtain ⟨rfl, hbuild, rfl⟩ := decodeBytes_cons_eq_some_iff.1 h
      exact congrArg (i.opcode :: ·) (Instr.build_mnemonic_getElem?_iff.1 hbuild)

/-! ## The checking decoder -/

/-- The register operands of a decoded instruction are operand a where one is used, and operand b of ADD, MUL and CMP. -/
theorem Instr.regOperands_of_build {i : Instr} {opa opb : Option Byte} (h : i.mnemonic.build opa opb = some i) :
    i.regOperands = (if 1 ≤ operandCount i.opcode then opa.toList else []) ++
      if i.mnemonic ∈ [Mnemonic.add, .mul, .cmp] then opb.toList else [] := by
  obtain ⟨ha, hb⟩ := Instr.build_mnemonic_eq_some_iff.1 h
  rw [Instr.opcode, operandCount_opcode]
  cases i with
  | hlt | ret => rfl
  | prn a | push a | pop a | call a | jmp a | jeq a | jne a => rw [ha a rfl]; rfl
  | ldi a b | add a b | mul a b | cmp a b => rw [ha a rfl, hb b rfl]; rfl

/-- The register check runs over the operands of the instruction `build` makes. -/
theorem decodeChecked_of_build {m : Mnemonic} {opa opb : Option Byte} {i : Instr} (h : m.build opa opb = some i) :
    decodeChecked m.opcode opa opb =
      (i.regOperands.find? fun r => decide (7 < r.toNat)).elim (.instr i) (.badRegister m) := by
  obtain rfl := Mnemonic.build_mnemonic h
  rw [decodeChecked, decode_of_opcode, h]
  simp only
  cases i.regOperands.find? fun r => decide (7 < r.toNat) <;> rfl

theorem Instr.wellFormed_of_find?_eq_none {i : Instr} (h : i.regOperands.find? (fun r => decide (7 < r.toNat)) = none) :
    i.wellFormed = true := by
  refine List.all_eq_true.2 fun r hr => ?_
  have := List.find?_eq_none.1 h r hr
  simp only [decide_eq_true_eq] at this ⊢
  omega

/-- ADD, MUL and CMP use two operands. -/
theorem operandCount_of_mem_alu {m : Mnemonic} (h : m ∈ [Mnemonic.add, .mul, .cmp]) : operandCount m.opcode = 2 := by
  rw [operandCount_opcode]
  fin_cases h <;> rfl

/-- Settles O8: a missing operand is `build`'s `none`; else the check meets operand a first, then operand b. -/
theorem checkedDecoderFollowsItsPriority : Obligations.CheckedDecoderFollowsItsPriority := by
  intro ir opa opb
  refine ⟨fun h => ?_, ?_⟩
  · rw [decodeChecked, decode_eq_illegal_iff.2 ⟨dispatch_eq_none_iff.2 h, rfl⟩]
  rintro m rfl
  have built (hno : ¬((1 ≤ operandCount m.opcode ∧ opa = none) ∨ (operandCount m.opcode = 2 ∧ opb = none))) :
      ∃ i, i.mnemonic = m ∧ m.build opa opb = some i ∧ i.regOperands =
        (if 1 ≤ operandCount m.opcode then opa.toList else []) ++
          if m ∈ [Mnemonic.add, .mul, .cmp] then opb.toList else [] := by
    obtain ⟨i, hi⟩ := Option.ne_none_iff_exists'.1 (mt Mnemonic.build_eq_none_iff.1 hno)
    obtain rfl := Mnemonic.build_mnemonic hi
    exact ⟨i, rfl, hi, Instr.regOperands_of_build hi⟩
  refine ⟨fun hmiss => ?_, fun a hN ha hb hbad => ?_, fun a b hm ha hb hgood hbad => ?_, fun ha hb => ?_⟩
  · rw [decodeChecked, decode_of_opcode, Mnemonic.build_eq_none_iff.2 hmiss]
  · obtain ⟨i, rfl, hi, hregs⟩ := built (by simpa [ha] using hb)
    rw [decodeChecked_of_build hi, hregs]
    simp [hN, ha, hbad]
  · have hN := operandCount_of_mem_alu hm
    obtain ⟨i, rfl, hi, hregs⟩ := built (by simp [ha, hb])
    rw [decodeChecked_of_build hi, hregs, if_pos hm]
    simp [hN, ha, hb, hbad, Nat.not_lt.2 hgood]
  · obtain ⟨i, rfl, hi, hregs⟩ := built fun h => by
      rcases h with ⟨hN, rfl⟩ | ⟨hN, rfl⟩
      · obtain ⟨a, h, -⟩ := ha hN
        cases h
      · obtain ⟨b, h, -⟩ := hb hN
        cases h
    have hnone : i.regOperands.find? (fun r => decide (7 < r.toNat)) = none := by
      rw [List.find?_eq_none, hregs]
      intro r hr
      have hr : r.toNat ≤ 7 := by
        rcases List.mem_append.1 hr with hr | hr
        · obtain ⟨hN, hr⟩ := (List.mem_ite_nil_right ..).1 hr
          obtain ⟨a, rfl, h⟩ := ha hN
          rwa [List.mem_singleton.1 hr]
        · obtain ⟨hm, hr⟩ := (List.mem_ite_nil_right ..).1 hr
          obtain ⟨b, rfl, h⟩ := hb (operandCount_of_mem_alu hm)
          rw [List.mem_singleton.1 hr]
          exact h hm
      simpa using hr
    refine ⟨i, Instr.wellFormed_of_find?_eq_none hnone, rfl, ?_⟩
    rw [decodeChecked_of_build hi, hnone]
    rfl

end Sys2Proof

/-!
PROOFS. Frames: what a handler, an instruction and a step leave unchanged, and the outputs of a step whose output before is
another one.
-/

namespace Sys2Proof

/-- The numbers of the registers an instruction may write (`10_state.md` section 1). -/
def Instr.writtenRegs : Instr → List Nat
  | .ldi a _ => [a.toNat]
  | .add a _ => [a.toNat]
  | .mul a _ => [a.toNat]
  | .push _  => [7]
  | .pop a   => [a.toNat, 7]
  | .call _  => [7]
  | .ret     => [7]
  | _        => []

end Sys2Proof

namespace Sys2Proof.Machine

/-! ## The frame of an instruction -/

/-- What lies between a state and the one an instruction leads to, but for PC, the run state and the fault record: only the
instruction's registers may differ, only CMP may write FL, only PUSH and CALL memory, and there the cell below SP alone, only PRN
the output, and it by appending its register. -/
structure Frame (i : Instr) (s u : State) : Prop where
  x   : ∀ r : RegIdx, r.val ∉ i.writtenRegs → u.x[r] = s.x[r]
  fl  : i.mnemonic ≠ .cmp → u.fl = s.fl
  mem : u.mem = s.mem ∨ (i.mnemonic = .push ∨ i.mnemonic = .call) ∧ ∃ v, u.mem = s.mem.write (s.x[7] - 1) v
  out : u.out = s.out ∨ ∃ a, ∃ ha : a.toNat < 8, i = .prn a ∧ u.out = s.out ++ [s.x[a.toNat]]

theorem handler_ok_frame {i : Instr} {s u : State} (h : handler i s = .ok u) : Frame i s u := by
  obtain ⟨-, -, h⟩ := handler_ok_cases h
  have other {x : Vector Byte 8} {n : Nat} (hn : n < 8) (v : Byte) (r : RegIdx) (hr : r.val ∉ [n]) :
      (x.set n v)[r] = x[r] :=
    Vector.getElem_set_ne hn r.isLt fun e => hr (List.mem_singleton.2 e.symm)
  rcases h with ⟨rfl, rfl⟩ | ⟨a, imm, ha, rfl, rfl⟩ | ⟨a, ha, rfl, rfl⟩ | ⟨a, b, ha, hb, rfl, rfl⟩ |
    ⟨a, b, ha, hb, rfl, rfl⟩ | ⟨a, b, ha, hb, rfl, rfl⟩ | ⟨a, ha, rfl, rfl⟩ | ⟨a, ha, rfl, rfl⟩ |
    ⟨a, ha, rfl, -, rfl⟩ | ⟨rfl, rfl⟩ | ⟨a, ha, rfl, rfl⟩ | ⟨a, ha, rfl, -, rfl⟩ | ⟨a, ha, rfl, -, rfl⟩
  case inl => exact ⟨fun _ _ => rfl, fun _ => rfl, .inl rfl, .inl rfl⟩
  · exact ⟨other ha _, fun _ => rfl, .inl rfl, .inl rfl⟩
  · exact ⟨fun _ _ => rfl, fun _ => rfl, .inl rfl, .inr ⟨a, ha, rfl, rfl⟩⟩
  · exact ⟨other ha _, fun _ => rfl, .inl rfl, .inl rfl⟩
  · exact ⟨other ha _, fun _ => rfl, .inl rfl, .inl rfl⟩
  · exact ⟨fun _ _ => rfl, fun hm => absurd rfl hm, .inl rfl, .inl rfl⟩
  · exact ⟨other (by decide) _, fun _ => rfl, .inr ⟨.inl rfl, _, rfl⟩, .inl rfl⟩
  · refine ⟨fun r hr => ?_, fun _ => rfl, .inl rfl, .inl rfl⟩
    obtain ⟨hra, hr7⟩ := not_or.1 (mt List.mem_cons.2 hr)
    exact (other (by decide) _ r hr7).trans (other ha _ r (mt List.mem_singleton.1 hra))
  · exact ⟨other (by decide) _, fun _ => rfl, .inr ⟨.inr rfl, _, rfl⟩, .inl rfl⟩
  · exact ⟨other (by decide) _, fun _ => rfl, .inl rfl, .inl rfl⟩
  all_goals exact ⟨fun _ _ => rfl, fun _ => rfl, .inl rfl, .inl rfl⟩

/-- A fault, and the PC update, touch nothing the frame speaks of. -/
theorem exec_frame {i : Instr} {s t : State} (h : exec i s = .next t) : Frame i s t := by
  rcases exec_cases h with ⟨c, -, rfl⟩ | ⟨u, hu, rfl⟩
  · exact ⟨fun _ _ => rfl, fun _ => rfl, .inl rfl, .inl rfl⟩
  · obtain ⟨hx, hfl, hmem, hout⟩ := handler_ok_frame hu
    exact ⟨by simpa using hx, by simpa using hfl, by simpa using hmem, by simpa using hout⟩

theorem Frame.out_eq {i : Instr} {s u : State} (h : Frame i s u) (hi : i.mnemonic ≠ .prn) : u.out = s.out :=
  h.out.resolve_right fun ⟨_, _, e, _⟩ => hi (e ▸ rfl)

theorem Frame.memRead_eq {i : Instr} {s u : State} (h : Frame i s u) (hi : ¬(i.mnemonic = .push ∨ i.mnemonic = .call))
    (n : Nat) : u.memRead n = s.memRead n :=
  congrArg (Memory.read · n) (h.mem.resolve_right fun hw => hi hw.1)

/-- No instruction changes a byte of memory but the one below SP. -/
theorem Frame.memRead_of_ne {i : Instr} {s u : State} (h : Frame i s u) {n : Nat} (hn : n ≠ (s.x[7] - 1).toNat) :
    u.memRead n = s.memRead n := by
  rcases h.mem with e | ⟨-, v, e⟩
  · rw [State.memRead, e, State.memRead]
  · rw [State.memRead, e, Memory.read_write_of_ne _ hn, State.memRead]

/-! ## PC, the run state and the fault record -/

/-- Only HLT stops the machine, and a handler that leaves PC to the engine does not write it. -/
theorem handler_ok_run_pc {i : Instr} {s u : State} (h : handler i s = .ok u) :
    (i ≠ .hlt → u.run = s.run) ∧ (setsPc i.opcode = false → u.pc = s.pc) := by
  obtain ⟨-, -, h⟩ := handler_ok_cases h
  rcases h with ⟨rfl, rfl⟩ | ⟨a, imm, ha, rfl, rfl⟩ | ⟨a, ha, rfl, rfl⟩ | ⟨a, b, ha, hb, rfl, rfl⟩ |
    ⟨a, b, ha, hb, rfl, rfl⟩ | ⟨a, b, ha, hb, rfl, rfl⟩ | ⟨a, ha, rfl, rfl⟩ | ⟨a, ha, rfl, rfl⟩ |
    ⟨a, ha, rfl, -, rfl⟩ | ⟨rfl, rfl⟩ | ⟨a, ha, rfl, rfl⟩ | ⟨a, ha, rfl, -, rfl⟩ | ⟨a, ha, rfl, -, rfl⟩
  case inl => exact ⟨fun hi => absurd rfl hi, fun _ => rfl⟩
  iterate 7 exact ⟨fun _ => rfl, fun _ => rfl⟩
  all_goals exact ⟨fun _ => rfl, fun hc => nomatch (setsPc_opcode _).symm.trans hc⟩

/-- An instruction that does not halt keeps the run state and the record, or raises a fault, and the record names it. -/
theorem exec_run_flt_cases {i : Instr} {s t : State} (h : exec i s = .next t) (hi : i ≠ .hlt) :
    (t.run = s.run ∧ t.flt = s.flt) ∨ ∃ c, t.run = .faulted ∧ t.flt = some ⟨c, s.pc, i.opcode⟩ := by
  rcases exec_cases h with ⟨c, -, rfl⟩ | ⟨u, hu, rfl⟩
  · exact .inr ⟨c, rfl, rfl⟩
  · obtain ⟨hrun, hpc⟩ := handler_ok_run_pc hu
    obtain ⟨-, hflt, -⟩ := handler_ok_cases hu
    rcases u.autoAdvance_run_flt_cases i.opcode with ⟨hr, hf⟩ | ⟨hc, hr, hf, -⟩
    · exact .inl ⟨hr.trans (hrun hi), hf.trans hflt⟩
    · exact .inr ⟨_, hr, hpc hc ▸ hf⟩

/-! ## The frames by instruction -/

/-- Settles O41: the frame of three instructions that write one register. -/
theorem frameOfLdiAddMul : Obligations.FrameOfLdiAddMul := by
  intro s t a b i hi h
  have hf := exec_frame h
  simp only [List.mem_cons, List.not_mem_nil, or_false] at hi
  rcases hi with rfl | rfl | rfl <;>
    exact ⟨fun r hr => hf.x r (mt List.mem_singleton.1 hr), hf.fl nofun, hf.out_eq nofun, hf.memRead_eq nofun,
      exec_run_flt_cases h nofun⟩

/-- Settles O20: HLT's handler halts, and the PC update of a halted machine never faults. -/
theorem execHltHalts : Obligations.ExecHltHalts := by
  intro s
  rw [exec_of_ok (i := .hlt) (u := s.halt) rfl, Instr.opcode, s.halt.autoAdvance_of_halted (setsPc_opcode _) rfl]
  exact congrArg (fun p => Host.Outcome.next (s.halt.writePc p)) (ofNat_pc_add s.pc 1)

/-- Settles O42: the frame of six instructions that write no register and no memory. -/
theorem frameOfHltPrnCmpAndJumps : Obligations.FrameOfHltPrnCmpAndJumps := by
  intro s t a b i hi h
  have hf := exec_frame h
  have hx (hw : i.writtenRegs = []) : t.x = s.x :=
    Vector.ext fun n hn => hf.x ⟨n, hn⟩ (hw ▸ List.not_mem_nil)
  simp only [List.mem_cons, List.not_mem_nil, or_false] at hi
  rcases hi with rfl | rfl | rfl | rfl | rfl | rfl
  · refine ⟨hx rfl, hf.memRead_eq nofun, fun _ => hf.fl nofun, fun _ => hf.out_eq nofun, ?_⟩
    rw [execHltHalts] at h
    cases h
    exact ⟨rfl, rfl⟩
  · exact ⟨hx rfl, hf.memRead_eq nofun, fun _ => hf.fl nofun, fun hi => absurd rfl hi, exec_run_flt_cases h nofun⟩
  · exact ⟨hx rfl, hf.memRead_eq nofun, fun hi => absurd rfl hi, fun _ => hf.out_eq nofun, exec_run_flt_cases h nofun⟩
  all_goals
    exact ⟨hx rfl, hf.memRead_eq nofun, fun _ => hf.fl nofun, fun _ => hf.out_eq nofun, exec_run_flt_cases h nofun⟩

/-- Settles O43: the frame of two instructions that write SP, and POP its operand too. -/
theorem frameOfPopAndRet : Obligations.FrameOfPopAndRet := by
  intro s t a i hi h
  have hf := exec_frame h
  have h7 {r : RegIdx} (hr : r ≠ 7) : r.val ≠ 7 := fun e => hr (Fin.ext e)
  simp only [List.mem_cons, List.not_mem_nil, or_false] at hi
  rcases hi with rfl | rfl
  · refine ⟨fun r hr hra => hf.x r fun hmem => ?_, hf.fl nofun, hf.out_eq nofun, hf.memRead_eq nofun,
      exec_run_flt_cases h nofun⟩
    exact (List.mem_pair.1 hmem).elim (hra rfl) (h7 hr)
  · exact ⟨fun r hr _ => hf.x r (mt List.mem_singleton.1 (h7 hr)), hf.fl nofun, hf.out_eq nofun, hf.memRead_eq nofun,
      exec_run_flt_cases h nofun⟩

/-- Settles O44: the frame of two instructions that write SP and the cell at the new SP. -/
theorem frameOfPushAndCall : Obligations.FrameOfPushAndCall := by
  intro s t a i hi h
  have hf := exec_frame h
  rw [State.decSp_sp]
  simp only [List.mem_cons, List.not_mem_nil, or_false] at hi
  rcases hi with rfl | rfl <;>
    exact ⟨fun r hr => hf.x r (mt List.mem_singleton.1 fun e => hr (Fin.ext e)), hf.fl nofun, hf.out_eq nofun,
      fun _ hn => hf.memRead_of_ne hn, exec_run_flt_cases h nofun⟩

/-! ## The frame of a step -/

/-- A step runs an instruction with its frame, or changes the run state and the fault record alone. -/
theorem step_frame_cases {s t : State} (h : step s = .next t) :
    (∃ c, t = s.raise c s.fetchOpcode) ∨
    ∃ i : Instr, i.opcode = s.fetchOpcode ∧ s.fetchDecode = .instr i ∧ exec i s = .next t ∧ Frame i s t := by
  obtain ⟨-, ⟨-, e⟩ | ⟨m, -, -, e⟩ | ⟨i, hi, hd, he⟩⟩ := step_cases h
  · exact .inl ⟨_, e⟩
  · exact .inl ⟨_, e⟩
  · exact .inr ⟨i, hi, hd, he, exec_frame he⟩

/-- Memory after a step: as before, or after PUSH (0x45) and CALL (0x50) with one write, to the cell below SP. -/
theorem step_mem_cases {s t : State} (h : step s = .next t) :
    t.mem = s.mem ∨
    (s.fetchOpcode = 0x45 ∨ s.fetchOpcode = 0x50) ∧ ∃ v, t.mem = s.mem.write (s.x[7] - 1) v := by
  rcases step_frame_cases h with ⟨c, rfl⟩ | ⟨i, hi, -, -, hf⟩
  · exact .inl rfl
  · refine hf.mem.imp_right (And.imp_left fun hm => ?_)
    rw [← hi, Instr.opcode]
    exact hm.imp (congrArg Mnemonic.opcode) (congrArg Mnemonic.opcode)

/-- The spec's decrement modulo 256 (`43_stack.md` R110) is 8-bit subtraction. -/
theorem toNat_sub_one (v : Byte) : (v - 1).toNat = (v.toNat + 255) % 256 := by
  rw [BitVec.toNat_sub, Nat.add_comm]
  rfl

/-- Settles O50: by `step_mem_cases`, the cell below SP being at SP minus 1 modulo 256. -/
theorem onlyPushAndCallWriteMemory : Obligations.OnlyPushAndCallWriteMemory := by
  intro s t _ h
  refine ⟨fun hpush hcall => (step_mem_cases h).resolve_right fun hw => hw.1.elim hpush hcall, fun n hn => ?_⟩
  rcases step_frame_cases h with ⟨c, rfl⟩ | ⟨i, -, -, -, hf⟩
  · rfl
  · exact hf.memRead_of_ne (toNat_sub_one _ ▸ hn)

/-! ## Another output before a step -/

/-- The state with values emitted before those of its output. -/
def State.prependOut (s : State) (o : List Byte) : State := { s with out := o ++ s.out }

@[simp] theorem State.prependOut_pc (s : State) (o : List Byte) : (s.prependOut o).pc = s.pc := rfl
@[simp] theorem State.prependOut_equalBit (s : State) (o : List Byte) : (s.prependOut o).equalBit = s.equalBit := rfl

/-- PRN's append comes after whatever the output held before. -/
theorem State.emit_prependOut (s : State) (o : List Byte) (v : Byte) :
    (s.prependOut o).emit v = (s.emit v).prependOut o := by
  simp [State.emit, State.prependOut]

theorem State.autoAdvance_prependOut (s : State) (o : List Byte) (ir : Byte) :
    (s.prependOut o).autoAdvance ir = (s.autoAdvance ir).prependOut o := by
  rcases s.autoAdvance_cases ir with ⟨hc, e⟩ | ⟨hc, hp | hh, e⟩ | ⟨hc, hp, hh, e⟩
  · rw [e, (s.prependOut o).autoAdvance_of_setsPc hc]
  · rw [e, (s.prependOut o).autoAdvance_of_le hc hp]
    rfl
  · rw [e, (s.prependOut o).autoAdvance_of_halted hc hh]
    rfl
  · rw [e, (s.prependOut o).autoAdvance_of_lt hc hh hp]
    rfl

theorem condJump_prependOut (taken : Bool) (a : Byte) (s : State) (o : List Byte) :
    condJump taken a (s.prependOut o) = (condJump taken a s).map fun u => u.prependOut o := by
  cases taken <;> simp only [condJump, State.prependOut_pc]
  · cases regIndex a <;> cases nextAddress (s.pc.toNat + 2) <;> rfl
  · cases regIndex a <;> rfl

/-- No handler reads the output. -/
theorem handler_prependOut (i : Instr) (s : State) (o : List Byte) :
    handler i (s.prependOut o) = (handler i s).map fun u => u.prependOut o := by
  cases i with
  | hlt | ret => rfl
  | prn a =>
    simp only [handler, prnHandler]
    cases regIndex a with
    | error _ => rfl
    | ok r => exact congrArg Except.ok (s.emit_prependOut o (s.readReg r))
  | ldi a _ | push a | pop a | jmp a =>
    simp only [handler, ldiHandler, pushHandler, popHandler, jmpHandler]
    cases regIndex a <;> rfl
  | add a b | mul a b | cmp a b =>
    simp only [handler, aluHandler]
    cases regIndex a <;> cases regIndex b <;> rfl
  | call a =>
    simp only [handler, callHandler, State.prependOut_pc]
    cases regIndex a <;> cases nextAddress (s.pc.toNat + 2) <;> rfl
  | jeq a | jne a =>
    simp only [handler, State.prependOut_equalBit]
    exact condJump_prependOut _ a s o

theorem exec_prependOut {i : Instr} {s t : State} (h : exec i s = .next t) (o : List Byte) :
    exec i (s.prependOut o) = .next (t.prependOut o) := by
  have hh := handler_prependOut i s o
  rcases exec_cases h with ⟨c, hc, rfl⟩ | ⟨u, hu, rfl⟩
  · rw [hc] at hh
    exact exec_of_error hh
  · rw [hu] at hh
    rw [exec_of_ok hh, State.autoAdvance_prependOut]

/-- A step after more output is the same step. -/
theorem step_prependOut {s t : State} (h : step s = .next t) (o : List Byte) :
    step (s.prependOut o) = .next (t.prependOut o) := by
  obtain ⟨hr, ⟨hd, rfl⟩ | ⟨m, hm, hb, rfl⟩ | ⟨i, -, hd, he⟩⟩ := step_cases h
  · exact step_of_illegal (s := s.prependOut o) hr (decode_eq_illegal_iff.2 ⟨hd, rfl⟩)
  · exact step_of_operandMissing (s := s.prependOut o) hr (decode_eq_operandMissing_iff.2 ⟨hm, hb⟩)
  · exact (step_of_instr (s := s.prependOut o) hr hd).trans (exec_prependOut he o)

/-- Settles O11: the engine turns both answers of a handler into a next state, and so does a fetch that decodes to none. -/
theorem runningMachineAlwaysSteps : Obligations.RunningMachineAlwaysSteps := by
  have hexec (i : Instr) (s : State) : ∃ t, exec i s = .next t := by
    cases hh : handler i s with
    | error c => exact ⟨_, exec_of_error hh⟩
    | ok u => exact ⟨_, exec_of_ok hh⟩
  refine ⟨hexec, fun s hr => ?_⟩
  cases hd : s.fetchDecode with
  | illegal ir => exact ⟨_, step_of_illegal hr hd⟩
  | operandMissing m => exact ⟨_, step_of_operandMissing hr hd⟩
  | badRegister m r => exact absurd hd (decode_ne_badRegister _ _ _ _ _)
  | instr i => exact (hexec i s).imp fun t ht => (step_of_instr hr hd).trans ht

/-- Settles O51: the appended value is PRN's, whose operand is the byte fetched; and both the given output and any other one
stand before the step from the state whose output is empty. -/
theorem outputIsAppendOnlyByPrnAndNeverRead : Obligations.OutputIsAppendOnlyByPrnAndNeverRead := by
  intro s t hr h
  constructor
  · rcases step_frame_cases h with ⟨c, rfl⟩ | ⟨i, hi, hd, -, hf⟩
    · exact .inl rfl
    · refine hf.out.imp_right fun ⟨a, ha, hprn, hout⟩ => ?_
      subst hprn
      have hA := (Instr.build_mnemonic_eq_some_iff.1 (decode_eq_instr_iff.1 hd).2).1 a rfl
      exact ⟨hi.symm, ⟨a.toNat, ha⟩, by rw [hA, BitVec.ofNat_toNat, BitVec.setWidth_eq], hout⟩
  · intro o
    obtain ⟨u, hu⟩ := runningMachineAlwaysSteps.2 { s with out := [] } hr
    have before (p : List Byte) : step { s with out := p } = .next { u with out := p ++ u.out } := by
      have hp := step_prependOut hu p
      rwa [State.prependOut, List.append_nil] at hp
    have ht : { u with out := s.out ++ u.out } = t := Host.Outcome.next.inj ((before s.out).symm.trans h)
    rw [before, ← ht, List.drop_left]

end Sys2Proof.Machine

/-!
PROOFS. The engine and its faults (`40_execution_engine.md`, `60_exceptions.md`): what a step runs, which fault it raises, and
the invariant every step keeps.
-/

namespace Sys2Proof.Machine

/-! ## The step around an instruction -/

/-- Settles O9: bytes in memory that are an instruction's encoding are the operands it is built from. -/
theorem stepRunsTheDecodedInstruction : Obligations.StepRunsTheDecodedInstruction := by
  refine ⟨fun s i => step_of_instr, fun s i hr h => ?_⟩
  have hop : s.memRead s.pc.toNat = some i.mnemonic.opcode := h 0 (Nat.succ_pos _)
  have operand (k : Nat) (b : Byte) (hb : i.operands[k]? = some b) : s.memRead (s.pc.toNat + (k + 1)) = some b := by
    obtain ⟨hk, rfl⟩ := List.getElem?_eq_some_iff.1 hb
    exact h (k + 1) (Nat.succ_lt_succ hk)
  exact step_of_build hr hop (Instr.build_mnemonic_eq_some_iff.2 ⟨operand 0, operand 1⟩)

/-- Where PC leaves room for three bytes, the three fetches of the next step give the three bytes of a placed word. -/
theorem State.memRead_placeWord {s : State} (hm : s.mem.wf) (hp : s.pc.toNat ≤ 253) (nbits w : Nat) {k : Nat} (hk : k < 3) :
    (s.placeWord nbits w).memRead (s.pc.toNat + k) = some (tableByte nbits w k) := by
  rw [State.memRead, State.placeWord, Memory.read_place hm _ _ (by omega),
    if_pos ⟨Nat.le_add_right _ _, Nat.add_lt_add_left hk _⟩, Nat.add_sub_cancel_left]
  interval_cases k <;> rfl

/-- Settles O10: the next fetch decodes the three placed bytes, as `decodeTableWord` does. -/
theorem stepRunsThePlacedWord : Obligations.StepRunsThePlacedWord := by
  intro s nbits w i hm hp hw
  refine step_of_instr rfl ?_
  have hir : (s.withFetchWord nbits w).fetchOpcode = tableByte nbits w 0 :=
    Option.some.inj ((State.memRead_pc _).symm.trans (State.memRead_placeWord hm hp nbits w (k := 0) (by decide)))
  have hopa : (s.withFetchWord nbits w).fetchOpA = some (tableByte nbits w 1) :=
    State.memRead_placeWord hm hp nbits w (by decide)
  have hopb : (s.withFetchWord nbits w).fetchOpB = some (tableByte nbits w 2) :=
    State.memRead_placeWord hm hp nbits w (by decide)
  rw [State.fetchDecode, hir, hopa, hopb]
  unfold decodeTableWord at hw
  split at hw
  · rename_i j hj
    rwa [Option.some.inj hw] at hj
  · cases hw

/-! ## Faults -/

/-- Settles O13: `raise` is that update, and a step asked in FAULTED is refused. -/
theorem faultEntryWritesRecordAndEndsTheRun : Obligations.FaultEntryWritesRecordAndEndsTheRun :=
  fun s c ir => ⟨rfl, step_of_faulted (s.raise_run c ir), rfl⟩

/-- Settles O15: by `step_of_operandPastMemory`. -/
theorem missingOperandRaisesOperandFetchFault : Obligations.MissingOperandRaisesOperandFetchFault :=
  fun _ _ hr hop hp => step_of_operandPastMemory _ hr hop rfl hp

/-- Settles O16: by `exec_of_not_wellFormed`. -/
theorem badRegisterOperandRaisesRegisterIndexFault : Obligations.BadRegisterOperandRaisesRegisterIndexFault :=
  fun s _ h => exec_of_not_wellFormed s h

end Sys2Proof.Machine

namespace Sys2Proof

/-- The instruction needs the next sequential address to be in memory, `e` being the E bit: HLT, RET and JMP never do, JEQ and JNE
when they do not jump, the others always (`60_exceptions.md` R140, code 5). -/
def Mnemonic.needsNext (e : Bool) : Mnemonic → Bool
  | .hlt => false
  | .ret => false
  | .jmp => false
  | .jeq => !e
  | .jne => e
  | _    => true

/-- The instructions whose PC the engine advances need the next address, but for HLT. -/
theorem Mnemonic.needsNext_of_not_setsPc {m : Mnemonic} (hc : setsPc m.opcode = false) (hm : m ≠ .hlt) (e : Bool) :
    m.needsNext e = true := by
  rw [setsPc_opcode] at hc
  cases m with
  | hlt => exact absurd rfl hm
  | call | ret | jmp | jeq | jne => cases hc
  | _ => rfl

theorem Instr.mnemonic_eq_hlt {i : Instr} : i.mnemonic = .hlt ↔ i = .hlt := by
  cases i <;> simp [Instr.mnemonic]

end Sys2Proof

namespace Sys2Proof.Machine

/-! ## Which fault a step raises -/

theorem State.overflowsPc_of_instr {s : State} {i : Instr} (h : s.fetchDecode = .instr i) :
    s.overflowsPc =
      (decide (255 < s.pc.toNat + 1 + operandCount i.opcode) && i.mnemonic.needsNext s.equalBit) := by
  rw [State.overflowsPc, ← (decode_eq_instr_iff.1 h).1, Instr.opcode]
  refine congrArg (_ && ·) ?_
  cases i.mnemonic <;> cases s.equalBit <;> rfl

theorem handler_jeq {s : State} {e : Bool} (h : s.equalBit = e) (a : Byte) : handler (.jeq a) s = condJump e a s := by
  subst h
  rfl

theorem handler_jne {s : State} {e : Bool} (h : s.equalBit = e) (a : Byte) : handler (.jne a) s = condJump (!e) a s := by
  subst h
  rfl

/-- A handler of a well-formed instruction faults for the next address alone, and only where its instruction needs it. -/
theorem needsNext_of_error {i : Instr} {s : State} {c : Cause} (h : handler i s = .error c) (hwf : i.wellFormed = true) :
    i.mnemonic.needsNext s.equalBit = true ∧ 255 < s.pc.toNat + 1 + operandCount i.opcode := by
  obtain ⟨-, hf⟩ | ⟨-, -, hc, hp⟩ := handler_error_cases h
  · exact absurd hwf (by simp [hf])
  have hreg {a : Byte} (ha : a ∈ i.regOperands) : a.toNat < 8 := of_decide_eq_true (List.all_eq_true.1 hwf a ha)
  rw [Instr.opcode] at hc ⊢
  rw [operandCount_opcode]
  cases i with
  | hlt | ret => cases h
  | ldi _ _ | prn _ | add _ _ | mul _ _ | cmp _ _ | push _ | pop _ => exact nomatch (setsPc_opcode _).symm.trans hc
  | call a => exact ⟨rfl, hp⟩
  | jmp a => exact nomatch (jmpHandler_of_lt (hreg List.mem_cons_self) s).symm.trans h
  | jeq a =>
    cases hE : s.equalBit with
    | false => exact ⟨rfl, hp⟩
    | true => exact nomatch ((handler_jeq hE a).trans (condJump_true (hreg List.mem_cons_self) s)).symm.trans h
  | jne a =>
    cases hE : s.equalBit with
    | false => exact nomatch ((handler_jne hE a).trans (condJump_true (hreg List.mem_cons_self) s)).symm.trans h
    | true => exact ⟨rfl, hp⟩

/-- A handler that sets PC itself and raises nothing has room for the next address where its instruction needs it. -/
theorem next_le_of_ok {i : Instr} {s u : State} (h : handler i s = .ok u) (hc : setsPc i.opcode = true)
    (hn : i.mnemonic.needsNext s.equalBit = true) : s.pc.toNat + 1 + operandCount i.opcode ≤ 255 := by
  obtain ⟨-, -, h⟩ := handler_ok_cases h
  rw [Instr.opcode] at hc ⊢
  rw [operandCount_opcode]
  cases i with
  | ldi _ _ | prn _ | add _ _ | mul _ _ | cmp _ _ | push _ | pop _ | hlt => exact nomatch (setsPc_opcode _).symm.trans hc
  | ret | jmp _ => cases hn
  | call a =>
    simp only [reduceCtorEq, false_and, exists_false, or_false, false_or] at h
    obtain ⟨_, -, -, hp, -⟩ := h
    exact Nat.add_le_add_right hp 2
  | jeq a =>
    simp only [reduceCtorEq, false_and, exists_false, or_false, false_or] at h
    obtain ⟨_, -, -, hp, -⟩ := h
    exact Nat.add_le_add_right (hp (Bool.eq_false_of_not_eq_true' hn)) 2
  | jne a =>
    simp only [reduceCtorEq, false_and, exists_false, false_or] at h
    obtain ⟨_, -, -, hp, -⟩ := h
    exact Nat.add_le_add_right (hp hn) 2

/-- What the PC update does after a handler that raised nothing, in the terms of PcOverflow's condition. -/
theorem autoAdvance_of_ok {s u : State} {i : Instr} (hr : s.run = .running) (hd : s.fetchDecode = .instr i)
    (hu : handler i s = .ok u) :
    (s.overflowsPc = false ∧ (u.autoAdvance i.opcode).run ≠ .faulted ∧ (u.autoAdvance i.opcode).flt = s.flt) ∨
    (s.overflowsPc = true ∧ setsPc i.opcode = false ∧ u.pc = s.pc ∧
      u.autoAdvance i.opcode = u.raise .pcOverflow i.opcode) := by
  obtain ⟨hrun, hpc⟩ := handler_ok_run_pc hu
  obtain ⟨-, hflt, -⟩ := handler_ok_cases hu
  have hrun' : u.run ≠ .faulted := by rcases handler_ok_run hu with e | e <;> simp [e, hr]
  rw [State.overflowsPc_of_instr hd, Bool.and_eq_false_iff, Bool.and_eq_true_iff, decide_eq_true_iff, decide_eq_false_iff_not]
  rcases u.autoAdvance_cases i.opcode with ⟨hc, e⟩ | ⟨hc, hp, e⟩ | ⟨hc, hp, hh, e⟩
  · rw [e]
    refine .inl ⟨?_, hrun', hflt⟩
    cases hn : i.mnemonic.needsNext s.equalBit with
    | false => exact .inr rfl
    | true => exact .inl (Nat.not_lt.2 (next_le_of_ok hu hc hn))
  · rw [e]
    refine .inl ⟨?_, hrun', hflt⟩
    rcases hp with hp | hh
    · exact .inl (Nat.not_lt.2 (hpc hc ▸ hp))
    · have hi : i = .hlt := by
        by_contra hi
        rw [hrun hi, hr] at hh
        cases hh
      exact .inr (hi ▸ rfl)
  · have hi : i.mnemonic ≠ .hlt := fun hm => by
      obtain rfl := Instr.mnemonic_eq_hlt.1 hm
      cases hu
      exact hh rfl
    exact .inr ⟨⟨hpc hc ▸ hp, Mnemonic.needsNext_of_not_setsPc hc hi _⟩, hc, hpc hc, e⟩

/-- Settles O19: a fetch that decodes to none, a handler's fault, and the PC update's are the four conditions in their order. -/
theorem stepRaisesExactlyTheFirstFault : Obligations.StepRaisesExactlyTheFirstFault := by
  intro s hr
  cases hd : s.fetchDecode with
  | illegal ir =>
    rw [State.firstFault_of_illegal (decode_eq_illegal_iff.1 hd).1]
    exact ⟨_, step_of_illegal hr hd, rfl, rfl, rfl, fun _ => rfl⟩
  | operandMissing m =>
    obtain ⟨hm, hb⟩ := decode_eq_operandMissing_iff.1 hd
    rw [State.firstFault_of_operandMissing hm hb]
    exact ⟨_, step_of_operandMissing hr hd, rfl, rfl, rfl, fun _ => rfl⟩
  | badRegister m r => exact absurd hd (decode_ne_badRegister _ _ _ _ _)
  | instr i =>
    have hir : i.opcode = s.fetchOpcode := (decode_eq_instr_iff.1 hd).1
    rw [step_of_instr hr hd, State.firstFault_of_instr hd, ← hir]
    cases hh : handler i s with
    | error c =>
      have hc : (if i.wellFormed then (if s.overflowsPc then some .pcOverflow else none) else some .registerIndex) =
          some c := by
        rcases handler_error_cases hh with ⟨rfl, hwf⟩ | ⟨rfl, hwf, -⟩
        · rw [hwf]
          rfl
        · obtain ⟨hn, hp⟩ := needsNext_of_error hh hwf
          rw [hwf, State.overflowsPc_of_instr hd, hn, decide_eq_true hp]
          rfl
      rw [hc]
      exact ⟨_, exec_of_error hh, rfl, rfl, rfl, fun _ => rfl⟩
    | ok u =>
      refine ⟨_, exec_of_ok hh, ?_⟩
      rw [(handler_ok_cases hh).1, if_pos rfl]
      rcases autoAdvance_of_ok hr hd hh with ⟨ho, hrun, hflt⟩ | ⟨ho, hc, hpc, e⟩
      · rw [ho]
        exact ⟨hrun, hflt⟩
      · rw [ho, e]
        exact ⟨rfl, by rw [State.raise_flt, hpc], hpc, fun h => absurd hc (by simpa using h)⟩

/-! ## The invariant -/

/-- No condition of `firstFault` is that of UnsupportedOperation (`42_alu.md` R105). -/
theorem State.firstFault_ne_unsupportedOperation (s : State) : s.firstFault ≠ some .unsupportedOperation := by
  unfold State.firstFault
  split_ifs <;> simp

/-- FL after a step: as before, or what a CMP wrote. -/
theorem step_fl_cases {s t : State} (h : step s = .next t) : t.fl = s.fl ∨ t.fl ∈ [0x01, 0x02, 0x04] := by
  by_cases hw : s.writesFl
  · exact .inr (step_fl_of_writesFl h hw)
  · exact .inl (step_fl_of_not_writesFl h hw)

/-- Settles O48: by `step_fl_cases`. -/
theorem flagsStayLegalAndNeverReturnToZero : Obligations.FlagsStayLegalAndNeverReturnToZero := by
  intro s t hs h
  rcases step_fl_cases h with e | hfl
  · rw [e]
    exact ⟨hs, id⟩
  · exact ⟨List.mem_cons_of_mem _ hfl, fun _ h0 => absurd (h0 ▸ hfl) (by decide)⟩

/-- A step keeps memory canonical: it writes one cell at most. -/
theorem step_mem_wf {s t : State} (hm : s.mem.wf) (h : step s = .next t) : t.mem.wf := by
  rcases step_mem_cases h with e | ⟨-, v, e⟩
  · exact e ▸ hm
  · exact e ▸ Memory.wf_write hm _ v

/-- Settles O45: memory and FL by what a step writes there; a running state has no record, and a step leaves it without one or,
by O19, faulted at the PC it had and for one of the four causes. -/
theorem stepKeepsTheInvariant : Obligations.StepKeepsTheInvariant := by
  rintro s t ⟨hmem, hfl, hrec, -⟩ h
  obtain ⟨hr, -⟩ := step_cases h
  have hflt : s.flt = none := by
    rw [← Option.not_isSome_iff_eq_none, ← hrec, hr]
    exact nofun
  refine ⟨step_mem_wf hmem h, (flagsStayLegalAndNeverReturnToZero s t hfl h).1, ?_⟩
  obtain ⟨u, hu, hfault⟩ := stepRaisesExactlyTheFirstFault s hr
  obtain rfl : u = t := Host.Outcome.next.inj (hu.symm.trans h)
  have hcause := s.firstFault_ne_unsupportedOperation
  cases hc : s.firstFault with
  | none =>
    simp only [hc] at hfault
    obtain ⟨hrun, hsame⟩ := hfault
    rw [hsame, hflt]
    exact ⟨iff_of_false hrun nofun, nofun⟩
  | some c =>
    simp only [hc] at hfault
    obtain ⟨hrun, hrecord, hpc, -⟩ := hfault
    rw [hrecord, hpc]
    refine ⟨iff_of_true hrun rfl, ?_⟩
    rintro f ⟨⟩
    exact ⟨rfl, fun e => hcause (hc.trans (congrArg some e))⟩

end Sys2Proof.Machine

/-!
PROOFS. Reset and launch (`70_reset_and_hazards.md`), the representation of memory (`20_memory.md`) and the laws of the ALU
(`42_alu.md`).
-/

namespace Sys2Proof.Machine

/-! ## Launch -/

/-- A launch that answers a state answers reset with the image in memory. -/
theorem State.eq_of_launch {image : List Byte} {s : State} (h : State.launch image = .next s) :
    s = { State.reset with mem := Memory.place [] 0 image } := by
  rcases Nat.lt_or_ge 256 image.length with hlen | hlen
  · rw [State.launch, if_neg (Nat.not_le.2 hlen)] at h
    cases h
  · exact Host.Outcome.next.inj (h.symm.trans (State.launch_of_le hlen))

/-- Settles O4: the length is what `launch` tests, and reset has emitted nothing. -/
theorem launchRefusesLongImageAndStartsSilent : Obligations.LaunchRefusesLongImageAndStartsSilent := by
  refine ⟨fun image hlen => if_neg (Nat.not_le.2 hlen), fun image s h => ?_⟩
  rw [State.eq_of_launch h]
  rfl

/-- Settles O46: reset by computation; a launch state differs from it in memory, which placing bytes keeps canonical. -/
theorem resetAndLaunchHaveTheInvariant : Obligations.ResetAndLaunchHaveTheInvariant := by
  have hreset : State.reset.Inv := by decide
  refine ⟨hreset, fun image s h => ?_⟩
  rw [State.eq_of_launch h]
  exact ⟨Memory.wf_place Memory.wf_nil 0 image, hreset.2⟩

/-! ## Canonical memories -/

/-- A memory that reads like one with a first listed cell lists a cell at or below it, since that cell reads as no reset cell. -/
theorem Memory.exists_le_head {c : Host.Cell} {m n : Memory} (hc : Memory.wf (c :: m))
    (h : ∀ a < 256, Memory.cell (c :: m) a = n.cell a) : ∃ d ∈ n, d.1 ≤ c.1 := by
  obtain ⟨-, hlt, hne, -⟩ := Memory.wf_cons.1 hc
  by_contra hno
  have hcell : n.cell c.1 = Config.resetCell :=
    Memory.cell_of_all_lt fun d hd => Nat.lt_of_not_le fun hle => hno ⟨d, hd, hle⟩
  exact hne (by rw [← hcell, ← h c.1 hlt, Memory.cell_cons, if_pos rfl])

/-- The first listed cell is the lowest. -/
theorem Memory.head_le {c d : Host.Cell} {m : Memory} (hc : Memory.wf (c :: m)) (hd : d ∈ c :: m) : c.1 ≤ d.1 := by
  rcases List.mem_cons.1 hd with rfl | hd
  · exact Nat.le_refl _
  · exact Nat.le_of_lt ((Memory.wf_cons.1 hc).1 d hd)

theorem Memory.eq_of_cell_eq {m n : Memory} (hm : m.wf) (hn : n.wf) (h : ∀ a < 256, m.cell a = n.cell a) : m = n := by
  induction m generalizing n with
  | nil =>
    cases n with
    | nil => rfl
    | cons d n =>
      obtain ⟨c, hc, -⟩ := Memory.exists_le_head hn fun a ha => (h a ha).symm
      cases hc
  | cons c m ih =>
    obtain ⟨d, hd, hdc⟩ := Memory.exists_le_head hm h
    cases n with
    | nil => cases hd
    | cons e n =>
      obtain ⟨f, hf, hfe⟩ := Memory.exists_le_head hn fun a ha => (h a ha).symm
      have haddr : c.1 = e.1 :=
        Nat.le_antisymm ((Memory.head_le hm hf).trans hfe) ((Memory.head_le hn hd).trans hdc)
      obtain ⟨k, v⟩ := c
      obtain ⟨k', w⟩ := e
      obtain rfl : k = k' := haddr
      obtain ⟨hmlt, hk, -, hm'⟩ := Memory.wf_cons.1 hm
      obtain ⟨hnlt, -, -, hn'⟩ := Memory.wf_cons.1 hn
      have hv := h k hk
      rw [Memory.cell_cons, Memory.cell_cons, if_pos rfl, if_pos rfl] at hv
      rw [hv, ih hm' hn' fun a ha => ?_]
      by_cases hak : k = a
      · subst hak
        rw [Memory.cell_of_all_lt hmlt, Memory.cell_of_all_lt hnlt]
      · have ht := h a ha
        rwa [Memory.cell_cons, Memory.cell_cons, if_neg hak, if_neg hak] at ht

/-- Settles O47: by induction on both lists; reading alike, they begin with the same cell. -/
theorem canonicalMemoriesThatReadAlikeAreEqual : Obligations.CanonicalMemoriesThatReadAlikeAreEqual := by
  intro m n hm hn h
  refine Memory.eq_of_cell_eq hm hn fun a ha => Option.some.inj ?_
  rw [← Memory.read_of_lt m ha, ← Memory.read_of_lt n ha, h]

/-! ## The laws of the ALU -/

theorem compareFlags_eq_flagE_iff {u v : Byte} : compareFlags u v = flagE ↔ u = v := by
  rcases compareFlags_cases u v with ⟨h, e⟩ | ⟨h, e⟩ | ⟨h, e⟩ <;> rw [e]
  · exact iff_of_true rfl h
  · exact iff_of_false (by decide) fun huv => Nat.ne_of_gt h (congrArg _ huv)
  · exact iff_of_false (by decide) fun huv => Nat.ne_of_lt h (congrArg _ huv)

theorem compareFlags_eq_flagG_iff {u v : Byte} : compareFlags u v = flagG ↔ v.toNat < u.toNat := by
  rcases compareFlags_cases u v with ⟨rfl, e⟩ | ⟨h, e⟩ | ⟨h, e⟩ <;> rw [e]
  · exact iff_of_false (by decide) (Nat.lt_irrefl _)
  · exact iff_of_true rfl h
  · exact iff_of_false (by decide) (Nat.lt_asymm h)

theorem compareFlags_eq_flagL_iff {u v : Byte} : compareFlags u v = flagL ↔ u.toNat < v.toNat := by
  rcases compareFlags_cases u v with ⟨rfl, e⟩ | ⟨h, e⟩ | ⟨h, e⟩ <;> rw [e]
  · exact iff_of_false (by decide) (Nat.lt_irrefl _)
  · exact iff_of_false (by decide) (Nat.lt_asymm h)
  · exact iff_of_true rfl h

/-- The byte `256 - u`, reduced, is the negation modulo 256. -/
theorem ofNat_sub_toNat (u : Byte) : BitVec.ofNat 8 ((256 - u.toNat) % 256) = -u := by
  apply BitVec.eq_of_toNat_eq
  simp

/-- Settles O59: the laws of 8-bit sums and products, and the three cases of the unsigned order. -/
theorem arithmeticLaws : Obligations.ArithmeticLaws := by
  simp only [Obligations.ArithmeticLaws, aluAdd_eq, aluMul_eq, ofNat_sub_toNat]
  refine ⟨fun u v => ⟨BitVec.add_comm u v, BitVec.mul_comm u v⟩,
    fun u => ⟨BitVec.add_zero u, BitVec.mul_one u, BitVec.mul_zero⟩,
    fun u => ⟨BitVec.add_right_neg u, ?_⟩, fun u v => ?_, fun u v => ?_⟩
  · exact mul_neg_one u
  · exact ⟨compareFlags_eq_flagE_iff, compareFlags_eq_flagG_iff, compareFlags_eq_flagL_iff⟩
  · exact ⟨compareFlags_eq_flagG_iff.trans compareFlags_eq_flagL_iff.symm,
      compareFlags_eq_flagE_iff.trans (eq_comm.trans compareFlags_eq_flagE_iff.symm)⟩

end Sys2Proof.Machine

/-!
PROOFS. What each instruction does (`41_hlt_ldi_prn.md` to `44_control_transfer.md`): when it completes, where the next address is
256, and whole, from the bytes in memory.
-/

namespace Sys2Proof.Machine

/-! ## Bytes and registers -/

theorem eq_sub_one_of_toNat {q v : Byte} (h : q.toNat = (v.toNat + 255) % 256) : q = v - 1 :=
  BitVec.eq_of_toNat_eq (h.trans (toNat_sub_one v).symm)

theorem eq_add_one_of_toNat {q v : Byte} (h : q.toNat = (v.toNat + 1) % 256) : q = v + 1 := by
  apply BitVec.eq_of_toNat_eq
  rw [h, BitVec.toNat_add]
  rfl

/-- A register after SP is written: SP itself for an explicit operand 7 (log entry 6). -/
theorem getElem_set_sp (x : Vector Byte 8) (v : Byte) {n : Nat} (hn : n < 8) :
    (x.set 7 v)[n] = if n = 7 then v else x[n] := by
  rw [Vector.getElem_set]
  simp only [eq_comm]

/-- SP after a register is written. -/
theorem sp_getElem_set (x : Vector Byte 8) (v : Byte) {n : Nat} (hn : n < 8) :
    (x.set n v)[7] = if n = 7 then v else x[7] :=
  Vector.getElem_set ..

/-! ## LDI, ADD, MUL, CMP and PRN -/

/-- Settles O21: three handlers that raise nothing, and the PC update past three bytes. -/
theorem execLdiAddMulWriteTheirRegister : Obligations.ExecLdiAddMulWriteTheirRegister := by
  intro s a b ha hp
  have hnext : s.pc.toNat + 1 + 2 ≤ 255 := by omega
  refine ⟨?_, fun hb => ⟨?_, ?_⟩⟩
  · exact exec_of_ok_of_le (i := .ldi a b) 2 (ldiHandler_of_lt ha b s) (setsPc_opcode _) (operandCount_opcode _) hnext
  · exact exec_of_ok_of_le (i := .add a b) 2 (aluHandler_of_lt .add ha hb s) (setsPc_opcode _) (operandCount_opcode _) hnext
  · exact exec_of_ok_of_le (i := .mul a b) 2 (aluHandler_of_lt .mul ha hb s) (setsPc_opcode _) (operandCount_opcode _) hnext

/-- Settles O22: the flags are `compareFlags`. -/
theorem execCmpOverwritesFlags : Obligations.ExecCmpOverwritesFlags := by
  intro s a b ha hb hp
  exact exec_of_ok_of_le (i := .cmp a b) 2 (aluHandler_of_lt .cmp ha hb s) (setsPc_opcode _) (operandCount_opcode _)
    (show s.pc.toNat + 1 + 2 ≤ 255 by omega)

/-- Settles O23: PRN's handler emits, and the PC update goes past two bytes. -/
theorem execPrnAppendsTheRegister : Obligations.ExecPrnAppendsTheRegister := by
  intro s a ha hp
  exact exec_of_ok_of_le (i := .prn a) 1 (prnHandler_of_lt ha s) (setsPc_opcode _) (operandCount_opcode _)
    (show s.pc.toNat + 1 + 1 ≤ 255 by omega)

/-- CMP's effect, the flags named by the order they stand for (`42_alu.md` R104). -/
theorem aluExecute_cmp {s : State} {i j : RegIdx} {f : Byte} (he : s.x[i].toNat = s.x[j].toNat → f = 0x01)
    (hg : s.x[j].toNat < s.x[i].toNat → f = 0x02) (hl : s.x[i].toNat < s.x[j].toNat → f = 0x04) :
    aluExecute .cmp i j s = { s with fl := f } := by
  have hf : compareFlags s.x[i] s.x[j] = f := by
    rcases compareFlags_cases s.x[i] s.x[j] with ⟨h, e⟩ | ⟨h, e⟩ | ⟨h, e⟩
    · exact e.trans (he (congrArg _ h)).symm
    · exact e.trans (hg h).symm
    · exact e.trans (hl h).symm
  rw [← hf]
  rfl

/-- Settles O33: `step_alu_rule` for the comparison. -/
theorem stepCmpRule : Obligations.StepCmpRule := by
  intro s hr hop
  refine (step_alu_rule (op := .cmp) hr hop).imp_right fun hthere a b hA hB => ?_
  exact (hthere a b hA hB).imp_right fun hcomplete ha hb f he hg hl => hcomplete ha hb _ (aluExecute_cmp he hg hl)

/-! ## HLT -/

/-- Settles O28: HLT uses no operand, so the step is the instruction's at any PC. -/
theorem stepHltRule : Obligations.StepHltRule := by
  intro s hr hop
  have hpc : BitVec.ofNat 8 ((s.pc.toNat + 1) % 256) = s.pc + 1 := eq_add_one_of_toNat (by simp)
  rw [step_of_build (m := .hlt) (i := .hlt) hr hop rfl, execHltHalts, hpc]

/-! ## PUSH and POP -/

/-- PUSH's handler, the new SP and the stored value named. -/
theorem pushHandler_ok {a q v : Byte} {s : State} (ha : a.toNat < 8) (hq : q = s.x[7] - 1)
    (hv : v = if a.toNat = 7 then q else s.x[a.toNat]) :
    pushHandler a s = .ok { s with x := s.x.set 7 q, mem := s.mem.write q v } := by
  rw [pushHandler_of_lt ha, getElem_set_sp _ _ ha, ← hq, ← hv]

/-- POP's handler, the loaded value and the new SP named. -/
theorem popHandler_ok {a v q : Byte} {s : State} (ha : a.toNat < 8) (hv : s.memRead s.x[7].toNat = some v)
    (hq : q = (if a.toNat = 7 then v else s.x[7]) + 1) :
    popHandler a s = .ok { s with x := (s.x.set a.toNat v).set 7 q } := by
  have hload : s.loadTop = v := Option.some.inj (s.memRead_sp.symm.trans hv)
  rw [popHandler_of_lt ha, sp_getElem_set _ _ ha, hload, ← hq]

/-- Settles O24: by `pushHandler_ok`. -/
theorem execPushStoresBelowTheStackPointer : Obligations.ExecPushStoresBelowTheStackPointer := by
  intro s a ha hp
  exact exec_of_ok_of_le (i := .push a) 1 (pushHandler_ok ha rfl rfl) (setsPc_opcode _) (operandCount_opcode _)
    (show s.pc.toNat + 1 + 1 ≤ 255 by omega)

/-- Settles O25: by `popHandler_ok`; with operand 7 the second write replaces the first. -/
theorem execPopLoadsFromTheStackPointer : Obligations.ExecPopLoadsFromTheStackPointer := by
  intro s a v ha hp hv
  have hexec := exec_of_ok_of_le (i := .pop a) 1 (popHandler_ok ha hv rfl) (setsPc_opcode _) (operandCount_opcode _)
    (show s.pc.toNat + 1 + 1 ≤ 255 by omega)
  rw [hexec]
  split
  · rename_i h7
    simp [h7]
  · rfl

/-- What the rules of PUSH and POP share once their handler raises nothing: PcOverflow at 254 with the effects kept, else PC past
two bytes. -/
theorem exec_twoBytes_of_ok {i : Instr} {s u : State} (hok : handler i s = .ok u) (hc : setsPc i.mnemonic.opcode = false)
    (hn : operandCount i.mnemonic.opcode = 1) (hr : u.run = .running) (hpc : u.pc = s.pc) :
    (s.pc.toNat = 254 → exec i s = .next (u.raise .pcOverflow i.opcode)) ∧
    (s.pc.toNat < 254 → exec i s = .next { u with pc := s.pc + 2 }) := by
  rw [← hpc]
  refine ⟨fun hp => ?_, fun hp => ?_⟩
  · exact exec_of_ok_of_lt 1 hok hc hn (by simp [hr]) (by omega)
  · exact exec_of_ok_of_le 1 hok hc hn (by omega)

/-- Settles O34: `step_regOperand_rule`, and past the index check PUSH's effects are kept whether the PC update fits or not. -/
theorem stepPushRule : Obligations.StepPushRule := by
  intro s hr hop
  refine (step_regOperand_rule (m := .push) (fun _ _ => rfl) (fun _ => rfl) hr hop).imp_right fun hthere a hA => ?_
  obtain ⟨hbad, hstep⟩ := hthere a hA
  refine ⟨hbad, fun ha q v hq hv => ?_⟩
  rw [hstep]
  exact exec_twoBytes_of_ok (i := .push a) (pushHandler_ok ha (eq_sub_one_of_toNat hq) hv) (setsPc_opcode _)
    (operandCount_opcode _) hr rfl

/-- Settles O35: `step_regOperand_rule`, and past the index check POP's effects are kept whether the PC update fits or not. -/
theorem stepPopRule : Obligations.StepPopRule := by
  intro s hr hop
  refine (step_regOperand_rule (m := .pop) (fun _ _ => rfl) (fun _ => rfl) hr hop).imp_right fun hthere a hA => ?_
  obtain ⟨hbad, hstep⟩ := hthere a hA
  refine ⟨hbad, fun ha v q hv hq => ?_⟩
  have hsp : q = (if a.toNat = 7 then v else s.x[7]) + 1 :=
    eq_add_one_of_toNat (hq.trans (by rw [apply_ite BitVec.toNat]))
  rw [hstep]
  exact exec_twoBytes_of_ok (i := .pop a) (popHandler_ok ha hv hsp) (setsPc_opcode _) (operandCount_opcode _) hr rfl

/-! ## The PC update past the top -/

theorem compareFlags_eq_ite (u v : Byte) : compareFlags u v = if u = v then 0x01 else if v < u then 0x02 else 0x04 := by
  simp only [compareFlags, BitVec.toNat_inj, BitVec.lt_def]
  rfl

/-- Settles O17: the handlers of seven instructions raise nothing, and the next address is 256. -/
theorem autoAdvancePastTheTopKeepsEffectsAndFaults : Obligations.AutoAdvancePastTheTopKeepsEffectsAndFaults := by
  intro s hr
  have hrun : s.run ≠ .halted := by simp [hr]
  refine ⟨fun hpc a ha => ?_, fun hpc a b ha => ?_⟩
  · have hnext : 255 < s.pc.toNat + 1 + 1 := by simp [hpc]
    refine ⟨?_, ?_, fun v hv => ?_⟩
    · exact exec_of_ok_of_lt 1 (prnHandler_of_lt ha s) (setsPc_opcode _) (operandCount_opcode _) hrun hnext
    · exact exec_of_ok_of_lt 1 (pushHandler_of_lt ha s) (setsPc_opcode _) (operandCount_opcode _) hrun hnext
    · obtain rfl : s.loadTop = v := Option.some.inj (s.memRead_sp.symm.trans hv)
      exact exec_of_ok_of_lt 1 (popHandler_of_lt ha s) (setsPc_opcode _) (operandCount_opcode _) hrun hnext
  · have hnext : 255 < s.pc.toNat + 1 + 2 := by simp [hpc]
    refine ⟨?_, fun hb => ?_⟩
    · exact exec_of_ok_of_lt 2 (ldiHandler_of_lt ha b s) (setsPc_opcode _) (operandCount_opcode _) hrun hnext
    have halu (op : AluOp) : exec (op.instr a b) s =
        .next ((aluExecute op ⟨a.toNat, ha⟩ ⟨b.toNat, hb⟩ s).raise .pcOverflow (op.instr a b).opcode) :=
      exec_of_ok_of_lt 2 (by rw [op.handler_instr, aluHandler_of_lt op ha hb]) (by simp) (by simp) (by simpa using hrun)
        (by simpa using hnext)
    rw [← aluAdd_eq, ← aluMul_eq, ← compareFlags_eq_ite]
    exact ⟨halu .add, halu .mul, halu .cmp⟩

/-! ## CALL, RET and the jumps -/

/-- Settles O26: CALL's handler with room for the return address, and RET's. -/
theorem execCallAndRetTransferThroughTheStack : Obligations.ExecCallAndRetTransferThroughTheStack := by
  refine ⟨fun s a ha hp => ?_, fun s v hv => ?_⟩
  · rw [← getElem_set_sp _ _ ha]
    exact exec_of_ok_of_setsPc (callHandler_of_lt ha s (by omega)) (setsPc_opcode _)
  · obtain rfl : s.loadTop = v := Option.some.inj (s.memRead_sp.symm.trans hv)
    exact exec_of_ok_of_setsPc (retHandler_eq s) (setsPc_opcode _)

/-- CALL without room for the return address changes nothing but what the fault writes (`44_control_transfer.md` R121). -/
theorem exec_call_of_gt {a : Byte} (ha : a.toNat < 8) {s : State} (hp : 253 < s.pc.toNat) :
    exec (.call a) s = .next (s.raise .pcOverflow 0x50) :=
  exec_of_error (i := .call a) (callHandler_of_gt ha s (by omega))

/-- A conditional jump: to its register, or past its two bytes where they leave room (`44_control_transfer.md` R126, R128). -/
theorem exec_of_condJump {i : Instr} {taken : Bool} {a : Byte} {s : State} (hh : handler i s = condJump taken a s)
    (hc : setsPc i.mnemonic.opcode = true) (ha : a.toNat < 8) :
    exec i s = .next (if taken then { s with pc := s.x[a.toNat] }
      else if s.pc.toNat ≤ 253 then { s with pc := s.pc + 2 } else s.raise .pcOverflow i.opcode) := by
  cases taken with
  | true => exact exec_of_ok_of_setsPc (hh.trans (condJump_true ha s)) hc
  | false =>
    by_cases hp : s.pc.toNat ≤ 253
    · rw [if_neg Bool.false_ne_true, if_pos hp]
      exact exec_of_ok_of_setsPc (hh.trans (condJump_false ha s (by omega))) hc
    · rw [if_neg Bool.false_ne_true, if_neg hp]
      exact exec_of_error (hh.trans (condJump_false_of_gt ha s (by omega)))

theorem exec_jeq {a : Byte} (ha : a.toNat < 8) (s : State) :
    exec (.jeq a) s = .next (if s.fl.getLsbD 0 then { s with pc := s.x[a.toNat] }
      else if s.pc.toNat ≤ 253 then { s with pc := s.pc + 2 } else s.raise .pcOverflow 0x55) :=
  exec_of_condJump (handler_jeq rfl a) (setsPc_opcode _) ha

theorem exec_jne {a : Byte} (ha : a.toNat < 8) (s : State) :
    exec (.jne a) s = .next (if s.fl.getLsbD 0 then
        (if s.pc.toNat ≤ 253 then { s with pc := s.pc + 2 } else s.raise .pcOverflow 0x56)
      else { s with pc := s.x[a.toNat] }) := by
  rw [exec_of_condJump (handler_jne rfl a) (setsPc_opcode _) ha, State.equalBit]
  cases s.fl.getLsbD 0 <;> rfl

/-- Settles O27: JMP's handler, and the conditional jumps with room for the fall through. -/
theorem execJumpsWriteOnlyPc : Obligations.ExecJumpsWriteOnlyPc := by
  intro s a ha
  refine ⟨exec_of_ok_of_setsPc (jmpHandler_of_lt ha s) (setsPc_opcode _), fun hp => ?_⟩
  rw [exec_jeq ha, exec_jne ha, if_pos hp, if_pos hp]
  cases s.fl.getLsbD 0 <;> exact ⟨rfl, rfl⟩

/-- Settles O18: no room for `p + 2`. -/
theorem callAndFallThroughAtTheTopFaultBeforeAnyEffect :
    Obligations.CallAndFallThroughAtTheTopFaultBeforeAnyEffect := by
  intro s a ha hpc
  have hp : 253 < s.pc.toNat := by simp [hpc]
  refine ⟨exec_call_of_gt ha hp, ?_⟩
  rw [exec_jeq ha, exec_jne ha, if_neg (Nat.not_le.2 hp), if_neg (Nat.not_le.2 hp)]
  exact ⟨rfl, rfl⟩

/-- Settles O36: `step_regOperand_rule`, and past the index check CALL faults at 254 before any effect and transfers below. -/
theorem stepCallRule : Obligations.StepCallRule := by
  intro s hr hop
  refine (step_regOperand_rule (m := .call) (fun _ _ => rfl) (fun _ => rfl) hr hop).imp_right fun hthere a hA => ?_
  obtain ⟨hbad, hstep⟩ := hthere a hA
  refine ⟨hbad, fun ha q ra hq => ⟨fun hp => ?_, fun hra => ?_⟩⟩
  · exact hstep.trans (exec_call_of_gt ha (by omega))
  · have hfit : s.pc.toNat + 2 ≤ 255 := by omega
    rw [eq_sub_one_of_toNat hq, show ra = s.pc + 2 by bv_omega]
    exact hstep.trans (execCallAndRetTransferThroughTheStack.1 s a ha (by omega))

/-- Settles O39: `step_regOperand_rule`, and past the index check JEQ is `exec_jeq`. -/
theorem stepJeqRule : Obligations.StepJeqRule := by
  intro s hr hop
  refine (step_regOperand_rule (m := .jeq) (fun _ _ => rfl) (fun _ => rfl) hr hop).imp_right fun hthere a hA => ?_
  obtain ⟨hbad, hstep⟩ := hthere a hA
  refine ⟨hbad, fun ha => ?_⟩
  rw [hstep, exec_jeq ha]
  refine ⟨fun he => ?_, fun he hp => ?_, fun he hp => ?_⟩
  · rw [he, if_pos rfl]
  · rw [he, if_neg Bool.false_ne_true, if_neg (by omega)]
  · rw [he, if_neg Bool.false_ne_true, if_pos (by omega)]

end Sys2Proof.Machine

/-!
PROOFS. Instructions one after the other, and whole runs (`40_execution_engine.md` section 5, `70_reset_and_hazards.md` section 3).
-/

namespace Sys2Proof.Machine

/-! ## Two instructions -/

/-- A push stores where SP then points, so the byte at SP is the pushed one. -/
theorem memRead_sp_of_push {s u : State} {v : Byte} (hm : s.mem.wf) (hx : u.x = s.x.set 7 (s.x[7] - 1))
    (hmem : u.mem = s.mem.write (s.x[7] - 1) v) : u.x[7] = s.x[7] - 1 ∧ u.memRead u.x[7].toNat = some v := by
  have hsp : u.x[7] = s.x[7] - 1 := by rw [hx, Vector.getElem_set_self]
  exact ⟨hsp, by rw [hsp, State.memRead, hmem, Memory.read_write hm, if_pos rfl]⟩

/-- A register written between two writes of SP, the second putting back what was there. -/
theorem set_sp_set_set_sp (x : Vector Byte 8) (q v : Byte) {n : Nat} (hn : n < 8) (h7 : n ≠ 7) :
    ((x.set 7 q).set n v).set 7 x[7] = x.set n v := by
  rw [Vector.set_comm _ _ h7, Vector.set_set, Vector.set_getElem_self]

/-- Settles O55: the steps of PUSH and of POP by their rules; the push leaves POP's two bytes as they are, and POP reads the
pushed one. -/
theorem pushThenPopCopiesAndRestoresStackPointer : Obligations.PushThenPopCopiesAndRestoresStackPointer := by
  intro s a c ha hc hm hr hp hpush hA hpop hC hq
  obtain ⟨-, hstep⟩ := (stepPushRule s hr hpush).2 a hA
  obtain ⟨-, hstep⟩ := hstep (by omega) (s.x[7] - 1) s.x[a.toNat] (by bv_omega) (if_neg (Nat.ne_of_lt ha)).symm
  have h1 := hstep (by omega)
  set u : State := { s with x := s.x.set 7 (s.x[7] - 1), mem := s.mem.write (s.x[7] - 1) s.x[a.toNat], pc := s.pc + 2 }
  obtain ⟨hsp, htop⟩ := memRead_sp_of_push (u := u) hm rfl rfl
  have hpc : u.pc.toNat = s.pc.toNat + 2 := show (s.pc + 2).toNat = _ by bv_omega
  have keeps (k : Nat) (hk : k < 4) : u.memRead (s.pc.toNat + k) = s.memRead (s.pc.toNat + k) :=
    Memory.read_write_of_ne _ (hq k hk).symm _
  obtain ⟨-, hstep⟩ := (stepPopRule u hr (by rw [hpc, keeps 2 (by decide), hpop])).2 c
    (by rw [hpc, Nat.add_assoc, keeps 3 (by decide), hC])
  obtain ⟨-, hstep⟩ := hstep (by omega) s.x[a.toNat] s.x[7] htop
    (by rw [if_neg (Nat.ne_of_lt hc), hsp]; bv_omega)
  have h2 := hstep (by omega)
  have hx : (u.x.set c.toNat s.x[a.toNat]).set 7 s.x[7] = s.x.set c.toNat s.x[a.toNat] :=
    set_sp_set_set_sp s.x _ _ (by omega) (Nat.ne_of_lt hc)
  have hpc4 : u.pc + 2 = s.pc + 4 := BitVec.add_assoc s.pc 2 2
  rw [hx, hpc4] at h2
  exact reaches_succ.2 ⟨u, h1, reaches_succ.2 ⟨_, h2, reaches_zero.2 rfl⟩⟩

/-- Settles O56: CALL's return address is what RET reads, and its decrement of SP what RET undoes. -/
theorem retAfterCallReturnsPastTheCall : Obligations.RetAfterCallReturnsPastTheCall := by
  intro s t u a ha hm hp hcall hsp hcell
  rw [execCallAndRetTransferThroughTheStack.1 s a ha hp] at hcall
  obtain ⟨hspt, htop⟩ := memRead_sp_of_push (u := t) (v := s.pc + 2) hm (by cases hcall; rfl) (by cases hcall; rfl)
  rw [execCallAndRetTransferThroughTheStack.2 u (s.pc + 2) (hcell.trans htop), hsp, hspt, BitVec.sub_add_cancel]

/-- The E bit after a comparison (`10_state.md` R16). -/
theorem compareFlags_getLsbD_zero (u v : Byte) : (compareFlags u v).getLsbD 0 = decide (u = v) := by
  rcases compareFlags_cases u v with ⟨h, e⟩ | ⟨h, e⟩ | ⟨h, e⟩ <;> rw [e]
  · exact (decide_eq_true h).symm
  · exact (decide_eq_false fun huv => Nat.ne_of_gt h (congrArg _ huv)).symm
  · exact (decide_eq_false fun huv => Nat.ne_of_lt h (congrArg _ huv)).symm

/-- Settles O57: CMP sets the E bit for equal values alone, and moves PC past three bytes. -/
theorem cmpThenJeqAndJneAreComplements : Obligations.CmpThenJeqAndJneAreComplements := by
  intro s t a b c ha hb hc hp hcmp
  rw [execCmpOverwritesFlags s a b ha hb (by omega)] at hcmp
  have hE : t.fl.getLsbD 0 = decide (s.x[a.toNat] = s.x[b.toNat]) := by
    cases hcmp
    exact compareFlags_getLsbD_zero _ _
  have hpc : t.pc = s.pc + 3 := by cases hcmp; rfl
  have hx : t.x[c.toNat] = s.x[c.toNat] := by cases hcmp; rfl
  have hnext : t.pc + 2 = s.pc + 5 := hpc ▸ BitVec.add_assoc s.pc 3 2
  obtain ⟨hjeq, hjne⟩ := (execJumpsWriteOnlyPc t c hc).2 (by rw [hpc]; bv_omega)
  rw [hjeq, hjne, hE, hx, hnext]
  refine ⟨fun he => ?_, fun hne => ?_⟩
  · rw [decide_eq_true he]
    exact ⟨rfl, rfl⟩
  · rw [decide_eq_false hne]
    exact ⟨rfl, rfl⟩

/-- Settles O58: the fetch at SP is a read at SP. -/
theorem storedByteIsWhatTheNextFetchSees : Obligations.StoredByteIsWhatTheNextFetchSees := by
  intro s t a ha hm hp
  have fetch {v : Byte} (h : t.memRead t.x[7].toNat = some v) : { t with pc := t.x[7] }.fetchOpcode = v :=
    Option.some.inj ((State.memRead_pc _).symm.trans h)
  refine ⟨fun h => ?_, fun h => ?_⟩
  · rw [exec_of_ok_of_le (i := .push a) 1 (pushHandler_of_lt ha s) (setsPc_opcode _) (operandCount_opcode _)
      (show s.pc.toNat + 1 + 1 ≤ 255 by omega)] at h
    exact fetch (memRead_sp_of_push hm (by cases h; rfl) (by cases h; rfl)).2
  · rw [execCallAndRetTransferThroughTheStack.1 s a ha hp] at h
    exact fetch (memRead_sp_of_push hm (by cases h; rfl) (by cases h; rfl)).2

/-! ## Runs -/

/-- Settles O12: the two terminal run states answer no next state, so a run from them takes no step. -/
theorem haltedAndFaultedAreTerminal : Obligations.HaltedAndFaultedAreTerminal := by
  refine ⟨fun _ => step_of_halted, fun _ => step_of_faulted, fun s t k hr h => ?_⟩
  cases k with
  | zero => exact ⟨rfl, (reaches_zero.1 h).symm⟩
  | succ k =>
    obtain ⟨u, hu, -⟩ := reaches_succ.1 h
    exact absurd (step_cases hu).1 hr

/-- Only HLT halts a running machine. -/
theorem fetchOpcode_of_step_halted {s t : State} (h : step s = .next t) (ht : t.run = .halted) :
    s.fetchOpcode = 0x01 := by
  obtain ⟨hr, -⟩ := step_cases h
  rcases step_frame_cases h with ⟨c, rfl⟩ | ⟨i, hi, -, he, -⟩
  · cases ht
  · have hhlt : i = .hlt := by
      by_contra hne
      rcases exec_run_flt_cases he hne with ⟨hrun, -⟩ | ⟨c, hrun, -⟩
      · rw [hrun, hr] at ht
        cases ht
      · rw [hrun] at ht
        cases ht
    rw [← hi, hhlt]
    rfl

/-- Settles O52: by induction on the run; it goes on while the machine runs, and no run goes on after that. -/
theorem completedRunsEndWithHlt : Obligations.CompletedRunsEndWithHlt := by
  rintro s t hr ⟨ht, k, hk⟩
  induction k generalizing s with
  | zero =>
    rw [reaches_zero.1 hk, ht] at hr
    cases hr
  | succ k ih =>
    obtain ⟨u, hu, hut⟩ := reaches_succ.1 hk
    by_cases hur : u.run = .running
    · obtain ⟨j, v, hj, hv⟩ := ih u hur hut
      exact ⟨j + 1, v, reaches_succ.2 ⟨u, hu, hj⟩, hv⟩
    · obtain ⟨-, rfl⟩ := haltedAndFaultedAreTerminal.2.2 u t k hur hut
      exact ⟨0, s, reaches_zero.2 rfl, hr, by rw [s.memRead_pc, fetchOpcode_of_step_halted hu ht], hu⟩

/-- A run has one end at most. -/
theorem end_unique {s t u : State} {j k : Nat} (hj : Reaches j s t) (hk : Reaches k s u) (ht : t.run ≠ .running)
    (hu : u.run ≠ .running) : t = u := by
  rcases Nat.le_total j k with h | h
  · obtain ⟨d, rfl⟩ := Nat.exists_eq_add_of_le h
    obtain ⟨v, hv, hd⟩ := reaches_add.1 hk
    obtain rfl := reaches_unique hj hv
    exact (haltedAndFaultedAreTerminal.2.2 t u d ht hd).2.symm
  · obtain ⟨d, rfl⟩ := Nat.exists_eq_add_of_le h
    obtain ⟨v, hv, hd⟩ := reaches_add.1 hj
    obtain rfl := reaches_unique hk hv
    exact (haltedAndFaultedAreTerminal.2.2 u t d hu hd).2

/-- After `k` steps the machine runs, or the run has ended. -/
theorem reaches_running_or_end (k : Nat) (s : State) :
    (∃ t, Reaches k s t ∧ t.run = .running) ∨ ∃ j t, Reaches j s t ∧ t.run ≠ .running := by
  induction k with
  | zero =>
    by_cases hr : s.run = .running
    · exact .inl ⟨s, reaches_zero.2 rfl, hr⟩
    · exact .inr ⟨0, s, reaches_zero.2 rfl, hr⟩
  | succ k ih =>
    refine ih.elim (fun ⟨t, ht, hr⟩ => ?_) .inr
    obtain ⟨u, hu⟩ := runningMachineAlwaysSteps.2 t hr
    have hsu : Reaches (k + 1) s u := reaches_add.2 ⟨t, ht, reaches_succ.2 ⟨u, hu, reaches_zero.2 rfl⟩⟩
    by_cases hur : u.run = .running
    · exact .inl ⟨u, hsu, hur⟩
    · exact .inr ⟨k + 1, u, hsu, hur⟩

/-- A run that ends does not run for ever. -/
theorem not_runsForEver_of_end {s t : State} {k : Nat} (h : Reaches k s t) (ht : t.run ≠ .running) : ¬ RunsForEver s := by
  intro hever
  obtain ⟨u, hu, hr⟩ := hever k
  exact ht (reaches_unique h hu ▸ hr)

/-- Settles O53: each number of steps leads to a running state, or some number of steps to an end; an end is unique, and it is
HALTED or FAULTED. -/
theorem runsHaveExactlyOneOutcome : Obligations.RunsHaveExactlyOneOutcome := by
  intro s
  have ended {t : State} {r : RunState} (ht : t.run = r) (hr : r ≠ .running) : t.run ≠ .running := ht ▸ hr
  refine ⟨?_, ?_, ?_, ?_, ?_⟩
  · by_cases hend : ∃ j t, Reaches j s t ∧ t.run ≠ .running
    · obtain ⟨j, t, hj, hne⟩ := hend
      cases ht : t.run with
      | running => exact absurd ht hne
      | halted => exact .inl ⟨t, ht, j, hj⟩
      | faulted => exact .inr (.inl ⟨t, ht, j, hj⟩)
    · exact .inr (.inr fun k => (reaches_running_or_end k s).resolve_right hend)
  · rintro t u ⟨ht, j, hj⟩ ⟨hu, k, hk⟩
    exact end_unique hj hk (ended ht nofun) (ended hu nofun)
  · rintro t u ⟨ht, j, hj⟩ ⟨hu, k, hk⟩
    exact end_unique hj hk (ended ht nofun) (ended hu nofun)
  · rintro t u ⟨ht, j, hj⟩ ⟨hu, k, hk⟩
    obtain rfl := end_unique hj hk (ended ht nofun) (ended hu nofun)
    exact nomatch ht.symm.trans hu
  · rintro t (⟨ht, j, hj⟩ | ⟨ht, j, hj⟩)
    · exact not_runsForEver_of_end hj (ended ht nofun)
    · exact not_runsForEver_of_end hj (ended ht nofun)

/-- A running state that steps to itself is all its run ever reaches. -/
theorem runsForEver_of_step_self {s : State} (hr : s.run = .running) (h : step s = .next s) : RunsForEver s := by
  refine fun k => ⟨s, ?_, hr⟩
  induction k with
  | zero => exact reaches_zero.2 rfl
  | succ k ih => exact reaches_succ.2 ⟨s, h, ih⟩

/-- Settles O54: JMP writes PC alone, and writes the value it has. -/
theorem jumpToItselfRunsForEver : Obligations.JumpToItselfRunsForEver := by
  intro s a ha hr hop hA hself
  have hstep := ((stepJmpRule s hr hop).2 a hA).2 ha
  rw [hself] at hstep
  exact ⟨hstep, runsForEver_of_step_self hr hstep⟩

end Sys2Proof.Machine
